-- ==== Sys2Proof/Word.lean ====
section
/-! DEFINITION. The bit vectors of the engine: a byte (a cell, a register, an operand, an opcode) and the 9-bit
program counter. Every value is unsigned (00_scope.md R7). -/

namespace Sys2Proof

/-- A byte: one memory cell, one register, one opcode or operand (00_scope.md R5, R7). -/
abbrev Byte := BitVec 8

/-- The program counter's 9 bits, holding 0 to 256 (10_state.md R24). -/
abbrev PcWord := BitVec 9

/-- `zext_9(v)` of 00_scope.md R8: a byte widened with a zero bit, as a jump target. -/
abbrev zext9 (v : Byte) : PcWord := v.setWidth 9

end Sys2Proof
end

