-- ==== Sys2Proof/Config.lean ====
section
/-! DEFINITION. The parameters of the hardware, at the values the reference machine takes (00_scope.md R5, R6).
The spec leaves no value undefined (40_engine_decoder_alu.md R93), so there is no free value here. -/

namespace Sys2Proof

/-- `MEM_SIZE`: the number of memory cells (00_scope.md R5). -/
@[simp] abbrev Config.memSize : Nat := 256

/-- `NUM_REGS`: the number of registers (00_scope.md R5). -/
@[simp] abbrev Config.numRegs : Nat := 8

/-- `SP_RESET`: the reset value of register 7 and of the stack pointer (00_scope.md R5). -/
@[simp] abbrev Config.spReset : Byte := 0xF4#8

/-- `PC_RESET`: the reset value of the program counter (00_scope.md R5). -/
@[simp] abbrev Config.pcReset : PcWord := 0#9

/-- What a cell holds that nothing has written: memory is "zero-initialized" (10_state.md R36). -/
@[simp] abbrev Config.unlistedCell : Byte := 0#8

/-- The longest instruction in bytes: an opcode and `MAX_OPERANDS` = 2 operands (00_scope.md R5). -/
@[simp] abbrev Config.maxInstrBytes : Nat := 3

end Sys2Proof
end

