-- ==== Sys2Proof/Syntax.lean ====
section
/-! DEFINITION. The twelve instructions as syntax (30_encoding.md R63, R64) and the decoder's descriptor types
(40_engine_decoder_alu.md R85, R86). An operand keeps all 8 bits of its byte: a register index is not masked. -/

namespace Sys2Proof

/-- A register-index operand byte as it stands in the instruction, 0 to 255; only 0 to 7 name a register
(30_encoding.md R63 (a)). -/
abbrev RegByte := Byte

/-- One constructor per row of the opcode table (30_encoding.md R64), with the operand bytes in their order. -/
inductive Instr where
  /-- HALT, 41_system.md R100. -/
  | halt
  /-- RETURN, 45_call_return.md R131. -/
  | ret
  /-- PUSH a, 44_stack.md R121. -/
  | push (a : RegByte)
  /-- POP a, 44_stack.md R122. -/
  | pop (a : RegByte)
  /-- PRINT_REGISTER a, 41_system.md R101. -/
  | printRegister (a : RegByte)
  /-- CALL a, 45_call_return.md R130. -/
  | call (a : RegByte)
  /-- JUMP a, 46_compare_branch.md R141. -/
  | jump (a : RegByte)
  /-- JUMP_IF_EQUAL a, 46_compare_branch.md R142. -/
  | jumpIfEqual (a : RegByte)
  /-- JUMP_IF_NOT_EQUAL a, 46_compare_branch.md R143. -/
  | jumpIfNotEqual (a : RegByte)
  /-- LOAD_IMMEDIATE a b, with `b` a literal, 42_data_movement.md R105. -/
  | loadImmediate (a : RegByte) (b : Byte)
  /-- MULTIPLY a b, 43_arithmetic.md R110. -/
  | multiply (a b : RegByte)
  /-- COMPARE a b, 46_compare_branch.md R140. -/
  | compare (a b : RegByte)
  deriving DecidableEq, Repr

/-- The instruction identity the decoder returns, without operands (40_engine_decoder_alu.md R84, R85). -/
inductive OpId where
  | halt | ret | push | pop | printRegister | call | jump | jumpIfEqual | jumpIfNotEqual
  | loadImmediate | multiply | compare
  deriving DecidableEq, Repr

/-- The two kinds of operand byte (30_encoding.md R63). -/
inductive OperandKind where
  | reg
  | literal
  deriving DecidableEq, Repr

/-- The descriptor's "reads registers" column (40_engine_decoder_alu.md R85). -/
inductive ReadsRegisters where
  | no
  | yes
  | whenTaken
  deriving DecidableEq, Repr

/-- Which sub-block does the work (40_engine_decoder_alu.md R86). It has no effect on the state. -/
inductive OpClass where
  | direct
  | alu
  | control
  deriving DecidableEq, Repr

/-- The decoder's descriptor of one opcode (40_engine_decoder_alu.md R85). -/
structure Descriptor where
  id : OpId
  /-- `d.n`, the operand count: 0, 1 or 2. -/
  n : Nat
  kinds : List OperandKind
  reads : ReadsRegisters
  cls : OpClass
  deriving DecidableEq, Repr

/-- An instruction's identity. -/
def Instr.opId : Instr → OpId
  | .halt => .halt
  | .ret => .ret
  | .push _ => .push
  | .pop _ => .pop
  | .printRegister _ => .printRegister
  | .call _ => .call
  | .jump _ => .jump
  | .jumpIfEqual _ => .jumpIfEqual
  | .jumpIfNotEqual _ => .jumpIfNotEqual
  | .loadImmediate _ _ => .loadImmediate
  | .multiply _ _ => .multiply
  | .compare _ _ => .compare

/-- The operand bytes that are register indices, in the order `a` then `b` (30_encoding.md R63). -/
def Instr.regOperands : Instr → List RegByte
  | .halt | .ret => []
  | .push a | .pop a | .printRegister a | .call a | .jump a | .jumpIfEqual a | .jumpIfNotEqual a => [a]
  | .loadImmediate a _ => [a]
  | .multiply a b | .compare a b => [a, b]

/-- The instruction's length in bytes, 1 + operand count (30_encoding.md R61, R64). -/
def Instr.length : Instr → Nat
  | .halt | .ret => 1
  | .push _ | .pop _ | .printRegister _ | .call _ | .jump _ | .jumpIfEqual _ | .jumpIfNotEqual _ => 2
  | .loadImmediate _ _ | .multiply _ _ | .compare _ _ => 3

end Sys2Proof
end

