-- ==== Sys2Proof/WellFormed.lean ====
section
/-! DEFINITION. When an instruction's operands are legal: every register index is 0 to 7, every literal is legal
(30_encoding.md R63, R67). An ill-formed instruction still decodes; executing it raises OutOfBounds
(40_engine_decoder_alu.md R83). -/

namespace Sys2Proof

/-- A register-index operand names a register (30_encoding.md R63 (a)). -/
def RegByte.legal (a : RegByte) : Bool := decide (a.toNat < Config.numRegs)

/-- Every register-index operand names a register (30_encoding.md R67). -/
def Instr.wellFormed (i : Instr) : Bool := i.regOperands.all RegByte.legal

end Sys2Proof
end

