-- ==== Sys2Proof/Machine/State.lean ====
section
/-! DEFINITION. The whole architectural state (10_state.md R20), the ways a step can stop, and the state after
reset (10_state.md R36, 70_reset_and_hazards.md R181). -/

namespace Sys2Proof.Machine

/-- The engine's two run states (10_state.md R27). -/
inductive Status where
  | running
  | halted
  deriving DecidableEq, Repr

/-- The five error kinds (60_exceptions.md R150, R153). -/
inductive ErrorKind where
  /-- R154: a memory address above 255, a register index above 7, or a CALL's return address of 256. -/
  | outOfBounds
  /-- R155: the opcode byte is none of the twelve. -/
  | decodeError
  /-- R156: the ALU is asked for an operation it lacks; no instruction raises it. -/
  | unsupportedOperation
  /-- R157: POP or RETURN with `sp` = 255. -/
  | stackUnderflow
  /-- R157: PUSH or CALL with `sp` = 0. -/
  | stackOverflow
  deriving DecidableEq, Repr

/-- What `raise K(info)` carries: the kind and the number recorded with it (60_exceptions.md R152, R153). -/
structure Raise where
  kind : ErrorKind
  info : Nat
  deriving DecidableEq, Repr

/-- Memory: (address, byte) pairs with strictly rising addresses below 256 and no byte equal to what an unlisted
address reads as; `Memory.wf` says so (20_memory.md R40). -/
abbrev Memory := List Host.Cell

/-- The architectural state between steps, the elements of 10_state.md R20 and nothing else. -/
structure State where
  /-- `M[0..255]` (R30). -/
  mem : Memory
  /-- `x[0]` to `x[7]` (R21). -/
  regs : Vector Byte 8
  /-- Flags: `E` bit 0, `G` bit 1, `L` bit 2, bits 7:3 zero (R25). -/
  fl : Byte
  /-- Program counter, 0 to 256 (R24). -/
  pc : PcWord
  /-- Stack pointer, an element of its own and not register 7 (R23, R26). -/
  sp : Byte
  /-- RUNNING or HALTED (R27). -/
  status : Status
  /-- The recorded error, `none` for the spec's `None` (R28). -/
  err : Option ErrorKind
  /-- `err_info`, the number recorded with the error (R28). -/
  errInfo : Nat
  /-- The values emitted since reset, first one first (R29). -/
  out : List Byte
  deriving DecidableEq, Repr

/-- How a step can have no next state. -/
inductive Fault where
  /-- Raised by `step` alone, when `status` is HALTED: "In `HALTED` the engine has no step" (10_state.md R27).
  The state is final and stays as it is. Safe. -/
  | halted
  deriving DecidableEq, Repr

/-- Why the model gives an instruction no meaning. -/
inductive Refusal where
  /-- Raised by `exec`'s arm of an instruction that has no meaning in this model; no arm raises it. Safe. -/
  | notModelled (mnemonic : String)
  deriving DecidableEq, Repr

/-- What executing an instruction answers. -/
abbrev Outcome := Host.Outcome State Fault Refusal

/-- The machine right after reset, before a program is loaded (10_state.md R36, 70_reset_and_hazards.md R181). -/
def State.reset : State where
  mem := []
  regs := #v[0, 0, 0, 0, 0, 0, 0, Config.spReset]
  fl := 0
  pc := Config.pcReset
  sp := Config.spReset
  status := .running
  err := none
  errInfo := 0
  out := []

end Sys2Proof.Machine
end

