-- ==== Sys2Proof/Machine/Flags.lean ====
section
/-! DEFINITION. The Flags register's predicates and the value COMPARE writes (10_state.md R25,
40_engine_decoder_alu.md R88). -/

namespace Sys2Proof.Machine

/-- `fl.E`, the equal predicate: bit 0 (10_state.md R25). -/
def flagE (fl : Byte) : Bool := fl.getLsbD 0

/-- `fl.G`, the greater predicate: bit 1 (10_state.md R25). -/
def flagG (fl : Byte) : Bool := fl.getLsbD 1

/-- `fl.L`, the less predicate: bit 2 (10_state.md R25). -/
def flagL (fl : Byte) : Bool := fl.getLsbD 2

/-- `compare(u, v)`: exactly one of `E` (0x01), `G` (0x02), `L` (0x04), the comparison unsigned
(40_engine_decoder_alu.md R88). -/
def compareFlags (u v : Byte) : Byte :=
  if u = v then 0x01#8 else if v.toNat < u.toNat then 0x02#8 else 0x04#8

end Sys2Proof.Machine
end

