-- ==== Sys2Proof/Machine/Alu.lean ====
section
/-! DEFINITION. The ALU: a pure block with two entry points, `apply` and `compare` (40_engine_decoder_alu.md R87
to R91). -/

namespace Sys2Proof.Machine

/-- Operation tags of `apply`. The engine presents `mul` only; `add` is the optional unreachable tag of
40_engine_decoder_alu.md R90, and `other` stands for every tag the ALU does not implement (R89). -/
inductive AluOp where
  | mul
  | add
  | other (tag : Nat)
  deriving DecidableEq, Repr

/-- `apply(operation, u, v)`: the exact result of unsigned operands, reduced modulo 256
(40_engine_decoder_alu.md R87, R90, R91). A tag the ALU lacks raises UnsupportedOperation (R89); the number
recorded with it is "not applicable" (60_exceptions.md R153), here 0. DESIGN CHOICE, log 3. -/
def aluApply (op : AluOp) (u v : Byte) : Except Raise Byte :=
  match op with
  | .mul => .ok (BitVec.ofNat 8 (u.toNat * v.toNat))
  | .add => .ok (BitVec.ofNat 8 (u.toNat + v.toNat))
  | .other _ => .error ⟨.unsupportedOperation, 0⟩

/-- `compare(u, v) -> flags` (40_engine_decoder_alu.md R88). -/
def aluCompare (u v : Byte) : Byte := compareFlags u v

end Sys2Proof.Machine
end

