-- ==== Sys2Proof/Decode.lean ====
section
/-! DEFINITION. The instruction decoder (40_engine_decoder_alu.md R84, R85; 30_encoding.md R60 to R66), total on
any bytes and rejecting by name, and after it the encoder and the host's reading of an opcode-table word. -/

namespace Sys2Proof

/-- The decode table: the twelve rows of 40_engine_decoder_alu.md R85, opcode byte and descriptor. -/
def opcodeTable : List (Byte × Descriptor) :=
  [ (0x01#8, ⟨.halt, 0, [], .no, .direct⟩),
    (0x82#8, ⟨.loadImmediate, 2, [.reg, .literal], .no, .direct⟩),
    (0x47#8, ⟨.printRegister, 1, [.reg], .yes, .direct⟩),
    (0xA2#8, ⟨.multiply, 2, [.reg, .reg], .yes, .alu⟩),
    (0x45#8, ⟨.push, 1, [.reg], .yes, .direct⟩),
    (0x46#8, ⟨.pop, 1, [.reg], .no, .direct⟩),
    (0x50#8, ⟨.call, 1, [.reg], .yes, .control⟩),
    (0x11#8, ⟨.ret, 0, [], .no, .control⟩),
    (0xA7#8, ⟨.compare, 2, [.reg, .reg], .yes, .alu⟩),
    (0x54#8, ⟨.jump, 1, [.reg], .yes, .control⟩),
    (0x55#8, ⟨.jumpIfEqual, 1, [.reg], .whenTaken, .control⟩),
    (0x56#8, ⟨.jumpIfNotEqual, 1, [.reg], .whenTaken, .control⟩) ]

/-- `decode(op)` of 40_engine_decoder_alu.md R84: the descriptor of an opcode byte, none for the 244 bytes that
are no opcode (30_encoding.md R66). All 8 bits are matched. -/
def decodeOpcode (op : Byte) : Option Descriptor :=
  (opcodeTable.find? fun row => row.1 == op).map Prod.snd

/-- The instruction of an identity and its operand bytes; a byte the format does not have is ignored
(30_encoding.md R61). -/
def OpId.build (id : OpId) (a b : Byte) : Instr :=
  match id with
  | .halt => .halt
  | .ret => .ret
  | .push => .push a
  | .pop => .pop a
  | .printRegister => .printRegister a
  | .call => .call a
  | .jump => .jump a
  | .jumpIfEqual => .jumpIfEqual a
  | .jumpIfNotEqual => .jumpIfNotEqual a
  | .loadImmediate => .loadImmediate a b
  | .multiply => .multiply a b
  | .compare => .compare a b

/-- Why bytes are no instruction. -/
inductive DecodeReject where
  /-- The first byte is none of the twelve opcodes (30_encoding.md R66). -/
  | illegalOpcode (op : Byte)
  /-- The bytes end before the instruction does (30_encoding.md R62). -/
  | truncated
  deriving DecidableEq, Repr

/-- The first `n` operand bytes and the rest; absent operands read as 0 and are ignored by `OpId.build`. -/
def splitOperands : Nat → List Byte → Option (Byte × Byte × List Byte)
  | 0, rest => some (0, 0, rest)
  | 1, a :: rest => some (a, 0, rest)
  | 2, a :: b :: rest => some (a, b, rest)
  | _, _ => none

/-- Decoding a string of bytes, lowest address first (20_memory.md R43): the instruction at its front and the
bytes after it, or the reason there is none. -/
def decode : List Byte → Except DecodeReject (Instr × List Byte)
  | [] => .error .truncated
  | op :: rest =>
    match decodeOpcode op with
    | none => .error (.illegalOpcode op)
    | some d =>
      match splitOperands d.n rest with
      | none => .error .truncated
      | some (a, b, rest') => .ok (d.id.build a b, rest')

/-- The bytes of an instruction, lowest address first, from the table of 30_encoding.md R64. -/
def encode : Instr → List Byte
  | .halt => [0x01#8]
  | .ret => [0x11#8]
  | .push a => [0x45#8, a]
  | .pop a => [0x46#8, a]
  | .printRegister a => [0x47#8, a]
  | .call a => [0x50#8, a]
  | .jump a => [0x54#8, a]
  | .jumpIfEqual a => [0x55#8, a]
  | .jumpIfNotEqual a => [0x56#8, a]
  | .loadImmediate a b => [0x82#8, a, b]
  | .multiply a b => [0xA2#8, a, b]
  | .compare a b => [0xA7#8, a, b]

/-- The three bytes of a table word: byte 0 in bits 7:0, byte 1 in bits 15:8, byte 2 in bits 23:16, every bit at
or above `nbits` zero. -/
def tableWordBytes (nbits w : Nat) : List Byte :=
  let v := w % 2 ^ nbits
  [BitVec.ofNat 8 v, BitVec.ofNat 8 (v / 256), BitVec.ofNat 8 (v / 65536)]

/-- The instruction the decoder reads from an instruction given as an opcode-table word. -/
def decodeTableWord (nbits w : Nat) : Option Instr :=
  match decode (tableWordBytes nbits w) with
  | .ok (i, _) => some i
  | .error _ => none

end Sys2Proof
end

