-- ==== Sys2Proof/Machine/Ops.lean ====
section
/-! DEFINITION. The named operations over memory, registers, the program counter and the output that the meanings
share, and the error entry (00_scope.md R8). There is no return from an error (60_exceptions.md R159). -/

namespace Sys2Proof.Machine

/-! ## Errors -/

/-- The state after `raise K(info)`: only `status`, `err` and `err_info` change (60_exceptions.md R152). -/
def State.raised (s : State) (r : Raise) : State :=
  { s with status := .halted, err := some r.kind, errInfo := r.info }

/-- Taking an error is a next state; control goes nowhere (60_exceptions.md R152). -/
def raise (s : State) (r : Raise) : Outcome := .next (s.raised r)

/-- The end of an instruction: its next state, or the error it raised, taken from the state BEFORE the
instruction, so that a raising instruction has no effect of its own (60_exceptions.md R152). -/
def finish (s : State) : Except Raise State → Outcome
  | .ok t => .next t
  | .error r => raise s r

/-- `status` = HALTED: "the engine has no step" (10_state.md R27, 40_engine_decoder_alu.md R80). DEDUCED, log 1. -/
def noStep (_ : State) : Outcome := .fault .halted

/-- The numeric codes of `err` (60_exceptions.md R153). -/
def errCode : Option ErrorKind → Nat
  | none => 0
  | some .outOfBounds => 1
  | some .decodeError => 2
  | some .unsupportedOperation => 3
  | some .stackUnderflow => 4
  | some .stackOverflow => 5

/-! ## Memory -/

/-- The byte at an address (20_memory.md R41); an unlisted address holds 0x00 (10_state.md R36). -/
def Memory.read : Memory → Nat → Byte
  | [], _ => Config.unlistedCell
  | (k, v) :: m, a => if k = a then v else Memory.read m a

/-- Storing one byte, keeping the canonical form (20_memory.md R42). -/
def Memory.write : Memory → Nat → Byte → Memory
  | [], a, v => if v = Config.unlistedCell then [] else [(a, v)]
  | (k, w) :: m, a, v =>
    if a < k then (if v = Config.unlistedCell then (k, w) :: m else (a, v) :: (k, w) :: m)
    else if a = k then (if v = Config.unlistedCell then m else (a, v) :: m)
    else (k, w) :: Memory.write m a v

/-- The canonical form from an address on: strictly rising, below 256, no byte equal to the unlisted one. -/
def Memory.wfFrom : Nat → Memory → Bool
  | _, [] => true
  | lo, (k, v) :: m =>
    decide (lo ≤ k) && decide (k < Config.memSize) && decide (v ≠ Config.unlistedCell) && Memory.wfFrom (k + 1) m

/-- The canonical form of a memory. -/
def Memory.wf (m : Memory) : Bool := Memory.wfFrom 0 m

/-- `MemRead(a, 1)`: an address above 255 raises OutOfBounds(a) (20_memory.md R41). -/
def memRead (m : Memory) (a : Nat) : Except Raise Byte :=
  if a < Config.memSize then .ok (m.read a) else .error ⟨.outOfBounds, a⟩

/-- `MemWrite(a, 1, v)`: an address above 255 raises OutOfBounds(a) (20_memory.md R42). -/
def memWrite (m : Memory) (a : Nat) (v : Byte) : Except Raise Memory :=
  if a < Config.memSize then .ok (m.write a v) else .error ⟨.outOfBounds, a⟩

/-- Bytes at ascending addresses from `a`; a byte that would fall outside Memory is not stored. -/
def storeBytes : Memory → Nat → List Byte → Memory
  | m, _, [] => m
  | m, a, v :: vs => storeBytes (if a < Config.memSize then m.write a v else m) (a + 1) vs

/-! ## Registers, program counter, output -/

/-- `x[i]` (10_state.md R21). -/
def State.reg (s : State) (i : Fin 8) : Byte := s.regs[i]

/-- `x[i] <- v`; a byte is already reduced to the register width (10_state.md R22). -/
def State.setReg (s : State) (i : Fin 8) (v : Byte) : State := { s with regs := s.regs.set i v }

/-- `fl <- v` (10_state.md R25). -/
def State.setFl (s : State) (v : Byte) : State := { s with fl := v }

/-- `pc <- p + n`, the sequential advance, on 9 bits (10_state.md R24). -/
def State.advance (s : State) (n : Nat) : State := { s with pc := s.pc + BitVec.ofNat 9 n }

/-- `pc <- zext_9(t)`, a target from a register or the stack (10_state.md R24). -/
def State.jumpTo (s : State) (t : Byte) : State := { s with pc := zext9 t }

/-- `emit(v)`: append to the output trace; it never fails or blocks (10_state.md R29). -/
def State.emit (s : State) (v : Byte) : State := { s with out := s.out ++ [v] }

/-! ## The stack (44_stack.md R120) -/

/-- The cell a push writes: the `sp` after the decrement. -/
def pushAddr (s : State) : Nat := (s.sp - 1).toNat

/-- A push with `sp` = 0 raises StackOverflow(0) (44_stack.md R120). -/
def checkPushRoom (s : State) : Except Raise Unit :=
  if s.sp = 0 then .error ⟨.stackOverflow, 0⟩ else .ok ()

/-- A pop with `sp` = 255 raises StackUnderflow(255) (44_stack.md R120). -/
def checkPopEntry (s : State) : Except Raise Unit :=
  if s.sp = 255 then .error ⟨.stackUnderflow, 255⟩ else .ok ()

/-- `sp <- sp - 1; MemWrite(sp, 1, v)`, after `checkPushRoom` (44_stack.md R121). -/
def pushByte (s : State) (v : Byte) : Except Raise State := do
  let m ← memWrite s.mem (pushAddr s) v
  pure { s with sp := s.sp - 1, mem := m }

/-- `v <- MemRead(sp, 1); sp <- sp + 1`, after `checkPopEntry` (44_stack.md R122). -/
def popByte (s : State) : Except Raise (Byte × State) := do
  let v ← memRead s.mem s.sp.toNat
  pure (v, { s with sp := s.sp + 1 })

/-- CALL's return address `p + 2`; 256 is no address and raises OutOfBounds(256) (45_call_return.md R130). -/
def returnAddress (s : State) : Except Raise Byte :=
  let ra := s.pc.toNat + 2
  if 255 < ra then .error ⟨.outOfBounds, ra⟩ else .ok (BitVec.ofNat 8 ra)

/-! ## Loading -/

/-- What the Loader leaves in Memory (10_state.md R34, 70_reset_and_hazards.md R184): the program's bytes from
address 0, at most 256 of them. A longer program is a failure of loading at address 256. -/
def State.load (s : State) (prog : List Byte) : Except Raise State :=
  if prog.length ≤ Config.memSize then .ok { s with mem := storeBytes s.mem 0 prog }
  else .error ⟨.outOfBounds, Config.memSize⟩

end Sys2Proof.Machine
end

