-- ==== Sys2Proof/Machine/Operands.lean ====
section
/-! DEFINITION. The two operand forms (30_encoding.md R63): a register index, checked before anything else the
instruction does (40_engine_decoder_alu.md R83), and a literal, which is the byte itself and needs no function. -/

namespace Sys2Proof.Machine

/-- The register-operand check: an index above 7 raises OutOfBounds(index), else it names a register; the index
is never masked (40_engine_decoder_alu.md R83). -/
def checkReg (a : RegByte) : Except Raise (Fin 8) :=
  if h : a.toNat < 8 then .ok ⟨a.toNat, h⟩ else .error ⟨.outOfBounds, a.toNat⟩

end Sys2Proof.Machine
end

