-- ==== Sys2Proof/Machine/Arithmetic.lean ====
section
/-! DEFINITION. MULTIPLY (43_arithmetic.md). -/

namespace Sys2Proof.Machine

/-- MULTIPLY a b (43_arithmetic.md R110): both sources are read before the write. -/
def execMultiply (a b : RegByte) (s : State) : Outcome := finish s do
  let ra ← checkReg a
  let rb ← checkReg b
  let v ← aluApply .mul (s.reg ra) (s.reg rb)
  pure ((s.setReg ra v).advance 3)

end Sys2Proof.Machine
end

