-- ==== Sys2Proof/Machine/CompareBranch.lean ====
section
/-! DEFINITION. COMPARE and the three jumps (46_compare_branch.md). -/

namespace Sys2Proof.Machine

/-- COMPARE a b (46_compare_branch.md R140). -/
def execCompare (a b : RegByte) (s : State) : Outcome := finish s do
  let ra ← checkReg a
  let rb ← checkReg b
  pure ((s.setFl (aluCompare (s.reg ra) (s.reg rb))).advance 3)

/-- JUMP a (46_compare_branch.md R141): the target is the register's value. -/
def execJump (a : RegByte) (s : State) : Outcome := finish s do
  let r ← checkReg a
  pure (s.jumpTo (s.reg r))

/-- JUMP_IF_EQUAL a (46_compare_branch.md R142); the index is checked also when the jump is not taken. -/
def execJumpIfEqual (a : RegByte) (s : State) : Outcome := finish s do
  let r ← checkReg a
  pure (if flagE s.fl then s.jumpTo (s.reg r) else s.advance 2)

/-- JUMP_IF_NOT_EQUAL a (46_compare_branch.md R143): taken when `E` is clear. -/
def execJumpIfNotEqual (a : RegByte) (s : State) : Outcome := finish s do
  let r ← checkReg a
  pure (if flagE s.fl then s.advance 2 else s.jumpTo (s.reg r))

end Sys2Proof.Machine
end

