-- ==== Sys2Proof/Machine/DataMovement.lean ====
section
/-! DEFINITION. LOAD_IMMEDIATE (42_data_movement.md). -/

namespace Sys2Proof.Machine

/-- LOAD_IMMEDIATE a b (42_data_movement.md R105); the literal `b` is never checked. -/
def execLoadImmediate (a : RegByte) (b : Byte) (s : State) : Outcome := finish s do
  let r ← checkReg a
  pure ((s.setReg r b).advance 3)

end Sys2Proof.Machine
end

