-- ==== Sys2Proof/Machine/Stack.lean ====
section
/-! DEFINITION. PUSH and POP (44_stack.md). -/

namespace Sys2Proof.Machine

/-- PUSH a (44_stack.md R121). -/
def execPush (a : RegByte) (s : State) : Outcome := finish s do
  let r ← checkReg a
  checkPushRoom s
  let t ← pushByte s (s.reg r)
  pure (t.advance 2)

/-- POP a (44_stack.md R122). -/
def execPop (a : RegByte) (s : State) : Outcome := finish s do
  let r ← checkReg a
  checkPopEntry s
  let vt ← popByte s
  pure ((vt.2.setReg r vt.1).advance 2)

end Sys2Proof.Machine
end

