-- ==== Sys2Proof/Machine/Subroutine.lean ====
section
/-! DEFINITION. CALL and RETURN (45_call_return.md). -/

namespace Sys2Proof.Machine

/-- CALL a (45_call_return.md R130), its errors in the order index, stack, return address
(60_exceptions.md R158). -/
def execCall (a : RegByte) (s : State) : Outcome := finish s do
  let r ← checkReg a
  checkPushRoom s
  let ra ← returnAddress s
  let t ← pushByte s ra
  pure (t.jumpTo (s.reg r))

/-- RETURN (45_call_return.md R131). -/
def execRet (s : State) : Outcome := finish s do
  checkPopEntry s
  let vt ← popByte s
  pure (vt.2.jumpTo vt.1)

end Sys2Proof.Machine
end

