-- ==== Sys2Proof/Machine/System.lean ====
section
/-! DEFINITION. HALT and PRINT_REGISTER (41_system.md). -/

namespace Sys2Proof.Machine

/-- HALT (41_system.md R100). -/
def execHalt (s : State) : Outcome := .next { s.advance 1 with status := .halted }

/-- PRINT_REGISTER a (41_system.md R101). -/
def execPrintRegister (a : RegByte) (s : State) : Outcome := finish s do
  let r ← checkReg a
  pure ((s.emit (s.reg r)).advance 2)

end Sys2Proof.Machine
end

