-- ==== Sys2Proof/Machine/Dispatch.lean ====
section
/-! DEFINITION. The dispatch of 40_engine_decoder_alu.md R81: one arm per instruction, each the register-operand
check and the instruction's own rule. `exec` does not look at `status`; `step` does (log 2). -/

namespace Sys2Proof.Machine

def exec (i : Instr) (s : State) : Host.Outcome State Fault Refusal :=
  match i with
  | .halt => Sys2Proof.Machine.execHalt s
  | .ret => Sys2Proof.Machine.execRet s
  | .push a => Sys2Proof.Machine.execPush a s
  | .pop a => Sys2Proof.Machine.execPop a s
  | .printRegister a => Sys2Proof.Machine.execPrintRegister a s
  | .call a => Sys2Proof.Machine.execCall a s
  | .jump a => Sys2Proof.Machine.execJump a s
  | .jumpIfEqual a => Sys2Proof.Machine.execJumpIfEqual a s
  | .jumpIfNotEqual a => Sys2Proof.Machine.execJumpIfNotEqual a s
  | .loadImmediate a b => Sys2Proof.Machine.execLoadImmediate a b s
  | .multiply a b => Sys2Proof.Machine.execMultiply a b s
  | .compare a b => Sys2Proof.Machine.execCompare a b s

end Sys2Proof.Machine
end

