-- ==== Sys2Proof/Machine/Fetch.lean ====
section
/-! DEFINITION. The first part of the step cycle (40_engine_decoder_alu.md R81): fetch the opcode byte at `pc`,
decode it, fetch its operand bytes. Memory is read anew at every step (20_memory.md R50). -/

namespace Sys2Proof.Machine

/-- The decode stage: an opcode byte outside the table raises DecodeError(op) (30_encoding.md R66,
60_exceptions.md R155). -/
def decodeStage (op : Byte) : Except Raise Descriptor :=
  match decodeOpcode op with
  | some d => .ok d
  | none => .error ⟨.decodeError, op.toNat⟩

/-- The `k`-th operand byte at `pc + k`, read only when the instruction has that many
(40_engine_decoder_alu.md R81). -/
def fetchOperand (s : State) (d : Descriptor) (k : Nat) : Except Raise Byte :=
  if k ≤ d.n then memRead s.mem (s.pc.toNat + k) else .ok 0

/-- The instruction at `pc`, or the first error of fetching and decoding it (40_engine_decoder_alu.md R81,
60_exceptions.md R158 places 1 to 4). -/
def fetch (s : State) : Except Raise Instr := do
  let op ← memRead s.mem s.pc.toNat
  let d ← decodeStage op
  let a ← fetchOperand s d 1
  let b ← fetchOperand s d 2
  pure (d.id.build a b)

/-- An opcode-table word's three bytes placed at `pc`. -/
def placeWord (s : State) (nbits w : Nat) : State :=
  { s with mem := storeBytes s.mem s.pc.toNat (tableWordBytes nbits w) }

/-- Fetch, then hand the instruction on; an error of the fetch is taken from the state before the step. -/
def fetchThen (s : State) (k : Instr → State → Outcome) : Outcome :=
  match fetch s with
  | .ok i => k i s
  | .error r => raise s r

end Sys2Proof.Machine
end

