-- ==== Sys2Proof/Machine/Step.lean ====
section
/-! DEFINITION. One step of the engine, one whole instruction (00_scope.md R9, 40_engine_decoder_alu.md R81). -/

namespace Sys2Proof.Machine

/-- One step: defined only while RUNNING (40_engine_decoder_alu.md R80, R81). -/
def step (s : State) : Host.Outcome State Fault Refusal :=
  match s.status with
  | .running => fetchThen s exec
  | .halted => noStep s

/-- The state with an opcode-table word's bytes stored at the program counter, where `step` fetches next. -/
def State.withFetchWord (s : State) (nbits w : Nat) : State := placeWord s nbits w

end Sys2Proof.Machine
end

