-- ==== Sys2Proof/Safety.lean ====
section
/-! DEFINITION. The terms claims are made in: the state an error leaves, the first error of a step, the invariant
of the state, and runs. Each is written from the spec's words and not from the model's operations. -/

namespace Sys2Proof.Machine

/-- The state an error leaves: `status` HALTED and the error recorded, all else as before the step
(60_exceptions.md R152). -/
def errorState (s : State) (k : ErrorKind) (info : Nat) : State :=
  { s with status := .halted, err := some k, errInfo := info }

/-- The bytes of Memory from the program counter to the last cell. -/
def bytesFromPc (s : State) : List Byte :=
  (List.range (256 - s.pc.toNat)).map fun k => s.mem.read (s.pc.toNat + k)

/-- The first error condition that holds for a step, in the eight places of 60_exceptions.md R158; none where the
step raises nothing. -/
def firstError (s : State) : Option (ErrorKind × Nat) :=
  let p := s.pc.toNat
  let op := s.mem.read p
  let a := (s.mem.read (p + 1)).toNat
  let b := (s.mem.read (p + 2)).toNat
  if 255 < p then some (.outOfBounds, p)
  else match decodeOpcode op with
    | none => some (.decodeError, op.toNat)
    | some d =>
      if 1 ≤ d.n ∧ 255 < p + 1 then some (.outOfBounds, p + 1)
      else if d.n = 2 ∧ 255 < p + 2 then some (.outOfBounds, p + 2)
      else if d.kinds[0]? = some .reg ∧ 7 < a then some (.outOfBounds, a)
      else if d.kinds[1]? = some .reg ∧ 7 < b then some (.outOfBounds, b)
      else if (d.id = .push ∨ d.id = .call) ∧ s.sp = 0 then some (.stackOverflow, 0)
      else if (d.id = .pop ∨ d.id = .ret) ∧ s.sp = 255 then some (.stackUnderflow, 255)
      else if d.id = .call ∧ p = 254 then some (.outOfBounds, 256)
      else none

/-- Which numbers `err_info` holds beside each `err` (60_exceptions.md R153). -/
def legalError : Option ErrorKind → Nat → Prop
  | none, n => n = 0
  | some .outOfBounds, n => 8 ≤ n ∧ n ≤ 256
  | some .decodeError, n => n < 256 ∧ decodeOpcode (BitVec.ofNat 8 n) = none
  | some .unsupportedOperation, _ => False
  | some .stackUnderflow, n => n = 255
  | some .stackOverflow, n => n = 0

/-- What the spec says of every state between steps: each element in its range (10_state.md R20), and an error is
recorded only in HALTED (10_state.md R28). -/
structure State.Inv (s : State) : Prop where
  /-- The memory has its canonical form; so every listed address is below 256. -/
  memWf : s.mem.wf = true
  /-- `pc` is 0 to 256 (10_state.md R24). -/
  pcRange : s.pc.toNat ≤ 256
  /-- `fl` is 0x00, 0x01, 0x02 or 0x04 (10_state.md R25). -/
  flLegal : s.fl = 0x00 ∨ s.fl = 0x01 ∨ s.fl = 0x02 ∨ s.fl = 0x04
  /-- `err` is `None` while RUNNING (10_state.md R28). -/
  runningNoError : s.status = .running → s.err = none
  /-- `err` and `err_info` go together (60_exceptions.md R153). -/
  errLegal : legalError s.err s.errInfo

/-- The register an instruction writes, by its index byte (the table of 10_state.md R23). -/
def destination : Instr → Option RegByte
  | .loadImmediate a _ | .multiply a _ | .pop a => some a
  | .halt | .ret | .push _ | .printRegister _ | .call _ | .jump _ | .jumpIfEqual _ | .jumpIfNotEqual _
  | .compare _ _ => none

/-- The value of a register by its index byte; only an index of 0 to 7 is ever asked for. -/
def regAt (s : State) (a : RegByte) : Byte := if h : a.toNat < 8 then s.regs[a.toNat] else 0

/-- The `pc` an instruction leaves when it raises nothing (the table of 10_state.md R24). -/
def pcAfter (i : Instr) (s : State) : Nat :=
  match i with
  | .halt => s.pc.toNat + 1
  | .loadImmediate _ _ | .multiply _ _ | .compare _ _ => s.pc.toNat + 3
  | .printRegister _ | .push _ | .pop _ => s.pc.toNat + 2
  | .call a | .jump a => (regAt s a).toNat
  | .ret => (s.mem.read s.sp.toNat).toNat
  | .jumpIfEqual a => if flagE s.fl then (regAt s a).toNat else s.pc.toNat + 2
  | .jumpIfNotEqual a => if flagE s.fl then s.pc.toNat + 2 else (regAt s a).toNat

/-- The illegal opcode values, as 30_encoding.md R66 lists them: first and last of each range. -/
def illegalRanges : List (Nat × Nat) :=
  [(0x00, 0x00), (0x02, 0x10), (0x12, 0x44), (0x48, 0x4F), (0x51, 0x53), (0x57, 0x81), (0x83, 0xA1), (0xA3, 0xA6),
   (0xA8, 0xFF)]

/-- A byte value that is no opcode (30_encoding.md R66). -/
def illegalOpcode (v : Nat) : Bool := illegalRanges.any fun r => decide (r.1 ≤ v ∧ v ≤ r.2)

/-- An instruction whose opcode is `op` and whose `n` bytes do not all lie in Memory raises OutOfBounds(256) in its
step, whatever its operands (40_engine_decoder_alu.md R81). -/
def RaisesPastMemory (op : Byte) (n : Nat) : Prop :=
  ∀ s : State, s.status = .running → s.pc.toNat ≤ 255 → s.mem.read s.pc.toNat = op → 256 < s.pc.toNat + n →
    step s = .next (errorState s .outOfBounds 256)

/-- Executing `i` with the register index `a` above 7 raises OutOfBounds(a) (40_engine_decoder_alu.md R83). -/
def RaisesOnIndex (i : Instr) (a : RegByte) : Prop :=
  7 < a.toNat → ∀ s : State, exec i s = .next (errorState s .outOfBounds a.toNat)

/-- A run: zero or more steps (40_engine_decoder_alu.md R82). -/
inductive Reaches : State → State → Prop where
  | refl (s : State) : Reaches s s
  | tail {s t u : State} : Reaches s t → step t = .next u → Reaches s u

/-- Executing instructions one after another, where each answers a next state. -/
def execAll : List Instr → State → Outcome
  | [], s => .next s
  | i :: is, s =>
    match exec i s with
    | .next t => execAll is t
    | .fault r => .fault r
    | .refused r => .refused r

end Sys2Proof.Machine
end

