-- ==== Sys2Proof/Certificates/Slice0/Obligations.lean ====
section
/-! DEFINITION. The statements for the provers, from the numbered rules of spec/. A statement of `exec` is about the
instruction with its bytes already fetched; `StepRunsDecodedInstruction` carries it to `step`. -/

open Sys2Proof Sys2Proof.Machine

/-! ## Decoding and encoding -/

/-- 30_encoding.md R64: one instruction of every format and family, its word written out bit by bit from the table,
decodes to the instruction it stands for. -/
def Obligations.TableWordsDecode : Prop :=
  decodeTableWord 8 0b00000001 = some .halt ∧
  decodeTableWord 8 0b00010001 = some .ret ∧
  decodeTableWord 16 0b00000011_01000101 = some (.push 3) ∧
  decodeTableWord 16 0b00000111_01000110 = some (.pop 7) ∧
  decodeTableWord 16 0b00000101_01000111 = some (.printRegister 5) ∧
  decodeTableWord 16 0b00000001_01010000 = some (.call 1) ∧
  decodeTableWord 16 0b00000010_01010100 = some (.jump 2) ∧
  decodeTableWord 16 0b00000100_01010101 = some (.jumpIfEqual 4) ∧
  decodeTableWord 16 0b00000110_01010110 = some (.jumpIfNotEqual 6) ∧
  decodeTableWord 24 0b11110000_00000010_10000010 = some (.loadImmediate 2 0xF0) ∧
  decodeTableWord 24 0b00000001_00000000_10100010 = some (.multiply 0 1) ∧
  decodeTableWord 24 0b00000010_00000101_10100111 = some (.compare 5 2) ∧
  decodeTableWord 8 0b00000000 = none

/-- 40_engine_decoder_alu.md R85: every row of the decode table. -/
def Obligations.DecodeTableHasTheSpecsRows : Prop :=
  decodeOpcode 0x01 = some ⟨.halt, 0, [], .no, .direct⟩ ∧
  decodeOpcode 0x82 = some ⟨.loadImmediate, 2, [.reg, .literal], .no, .direct⟩ ∧
  decodeOpcode 0x47 = some ⟨.printRegister, 1, [.reg], .yes, .direct⟩ ∧
  decodeOpcode 0xA2 = some ⟨.multiply, 2, [.reg, .reg], .yes, .alu⟩ ∧
  decodeOpcode 0x45 = some ⟨.push, 1, [.reg], .yes, .direct⟩ ∧
  decodeOpcode 0x46 = some ⟨.pop, 1, [.reg], .no, .direct⟩ ∧
  decodeOpcode 0x50 = some ⟨.call, 1, [.reg], .yes, .control⟩ ∧
  decodeOpcode 0x11 = some ⟨.ret, 0, [], .no, .control⟩ ∧
  decodeOpcode 0xA7 = some ⟨.compare, 2, [.reg, .reg], .yes, .alu⟩ ∧
  decodeOpcode 0x54 = some ⟨.jump, 1, [.reg], .yes, .control⟩ ∧
  decodeOpcode 0x55 = some ⟨.jumpIfEqual, 1, [.reg], .whenTaken, .control⟩ ∧
  decodeOpcode 0x56 = some ⟨.jumpIfNotEqual, 1, [.reg], .whenTaken, .control⟩

/-- 30_encoding.md R61, R63, R64: decoding the bytes of an instruction, whatever follows them, gives the
instruction back with every bit of every operand, and leaves what follows. It holds of ill-formed operands too. -/
def Obligations.DecodeOfEncodeIsTheInstruction : Prop :=
  ∀ (i : Instr) (rest : List Byte), decode (encode i ++ rest) = .ok (i, rest)

/-- 30_encoding.md R62, R64: bytes that decode to an instruction are exactly that instruction's encoding; no two
encodings mean the same instruction, and no bit of the bytes read is dropped. -/
def Obligations.DecodedBytesAreTheEncoding : Prop :=
  ∀ (bytes : List Byte) (i : Instr) (rest : List Byte),
    decode bytes = .ok (i, rest) → bytes = encode i ++ rest

/-- 30_encoding.md R66: the illegal opcodes are the listed values, 244 of them, and fetching one raises
DecodeError(op) wherever it stands, at the last cell too (no operand is fetched), changing nothing else. -/
def Obligations.IllegalOpcodeRaisesDecodeError : Prop :=
  (∀ v : Nat, v < 256 → (decodeOpcode (BitVec.ofNat 8 v) = none ↔ illegalOpcode v = true)) ∧
  ((List.range 256).filter fun v => (decodeOpcode (BitVec.ofNat 8 v)).isNone).length = 244 ∧
  ∀ s : State, s.status = .running → s.pc.toNat ≤ 255 → illegalOpcode (s.mem.read s.pc.toNat).toNat = true →
    step s = .next (errorState s .decodeError (s.mem.read s.pc.toNat).toNat)

/-! ## The step -/

/-- 40_engine_decoder_alu.md R81: when the bytes at the program counter decode to an instruction, the step is that
instruction's execution in the same state; the step adds nothing around it. -/
def Obligations.StepRunsDecodedInstruction : Prop :=
  ∀ (s : State) (i : Instr) (rest : List Byte),
    s.status = .running → decode (bytesFromPc s) = .ok (i, rest) → step s = exec i s

/-- 40_engine_decoder_alu.md R81: when the bytes at the program counter are no instruction, the step raises
DecodeError(op) for an illegal opcode and OutOfBounds(256) where Memory ends first. -/
def Obligations.StepRaisesWhereNothingDecodes : Prop :=
  ∀ s : State, s.status = .running →
    (∀ op, decode (bytesFromPc s) = .error (.illegalOpcode op) →
      step s = .next (errorState s .decodeError op.toNat)) ∧
    (s.pc.toNat ≤ 256 → decode (bytesFromPc s) = .error .truncated →
      step s = .next (errorState s .outOfBounds 256))

/-- The model's own convention (log 6): `withFetchWord` places an opcode-table word where the step fetches, so that
the very next step runs the instruction the decoder reads from that word. -/
def Obligations.StepAfterWithFetchWordRunsTheWord : Prop :=
  ∀ (s : State) (nbits w : Nat) (i : Instr),
    s.status = .running → s.mem.wf = true → s.pc.toNat ≤ 253 → decodeTableWord nbits w = some i →
      step (s.withFetchWord nbits w) = exec i (s.withFetchWord nbits w)

/-- 60_exceptions.md R158: the step raises the first error condition that holds, in the order of the eight places, and
where none holds it raises nothing: it answers a next state with `err` and `err_info` as before. The order is the
spec's own decision D7 (log 4). Above 256, which no run reaches, that a fetch raises OutOfBounds of `pc` is the model's
choice (log 7). -/
def Obligations.FirstErrorInPriorityOrderIsRaised : Prop :=
  ∀ s : State, s.status = .running →
    (∀ k n, firstError s = some (k, n) → step s = .next (errorState s k n)) ∧
    (firstError s = none → ∃ t, step s = .next t ∧ t.err = s.err ∧ t.errInfo = s.errInfo)

/-- 60_exceptions.md R152: a step that raises leaves the state before it except `status`, `err` and `err_info`. That
an error has no other effect, and its record, are the spec's own decisions D5 and D6 (log 4). -/
def Obligations.ErrorChangesOnlyItsRecord : Prop :=
  ∀ (s t : State) (k : ErrorKind), s.err = none → step s = .next t → t.err = some k →
    t = { s with status := .halted, err := some k, errInfo := t.errInfo }

/-- 40_engine_decoder_alu.md R80, R81; 60_exceptions.md R150: while RUNNING every step answers a next state, an
error being one; the engine is never stuck. -/
def Obligations.RunningEngineAlwaysSteps : Prop :=
  ∀ s : State, s.status = .running → ∃ t, step s = .next t

/-- 10_state.md R27: in HALTED the engine has no step. That this is the fault named `halted` is the model's
convention (log 1). -/
def Obligations.HaltedEngineHasNoStep : Prop :=
  ∀ s : State, s.status = .halted → step s = .fault .halted

/-- 10_state.md R27: a step ends in HALTED exactly when it executes HALT or raises an error. -/
def Obligations.HaltedOnlyByHaltOrError : Prop :=
  ∀ s t : State, s.err = none → step s = .next t →
    (t.status = .halted ↔ s.mem.read s.pc.toNat = 0x01 ∨ t.err ≠ none)

/-- 60_exceptions.md R159, R169: nothing is reached from HALTED but the halted state itself. -/
def Obligations.HaltedStateIsFinal : Prop :=
  ∀ s t : State, s.status = .halted → Reaches s t → t = s

/-- 40_engine_decoder_alu.md R82: a run that ends, ends by an error, or without one by executing HALT. -/
def Obligations.RunEndsByHaltOrByError : Prop :=
  ∀ s t : State, s.status = .running → s.err = none → Reaches s t → t.status = .halted →
    t.err ≠ none ∨
    (t.err = none ∧ ∃ u, Reaches s u ∧ u.status = .running ∧ u.mem.read u.pc.toNat = 0x01 ∧ step u = .next t)

/-! ## Reset, loading and the invariant -/

/-- 70_reset_and_hazards.md R181: the state after reset and before loading. -/
def Obligations.ResetStateIsTheSpecs : Prop :=
  (∀ i : Nat, (h : i < 7) → State.reset.regs[i] = 0x00) ∧ State.reset.regs[7] = 0xF4 ∧ State.reset.fl = 0 ∧
  State.reset.pc = 0 ∧ State.reset.sp = 0xF4 ∧ State.reset.status = .running ∧ State.reset.err = none ∧
  State.reset.errInfo = 0 ∧ State.reset.out = [] ∧ ∀ i : Nat, State.reset.mem.read i = 0

/-- 10_state.md R20, R36: the reset state meets the invariant. -/
def Obligations.ResetMeetsTheInvariant : Prop := State.reset.Inv

/-- 70_reset_and_hazards.md R184: loading a program of at most 256 bytes after reset leaves its bytes from address 0,
zero above them, all else as reset leaves it, and the invariant. `State.load` is the model's (log 6). -/
def Obligations.LoadLeavesTheProgramFromZero : Prop :=
  ∀ prog : List Byte, prog.length ≤ 256 →
    ∃ s, State.reset.load prog = .ok s ∧ s = { State.reset with mem := s.mem } ∧ s.Inv ∧
      ∀ i, s.mem.read i = prog.getD i 0

/-- 10_state.md R20, R24 to R28; 60_exceptions.md R153: every step from a state that meets the invariant leads to one
that meets it: canonical memory, `pc` at most 256, legal flags, an error only in HALTED and with a legal number. The
ranges of `pc` and `fl` and the error record are the spec's own decisions D4, D2 and D6 (logs 4, 5). -/
def Obligations.StepKeepsTheInvariant : Prop :=
  ∀ s t : State, s.Inv → step s = .next t → t.Inv

/-- 60_exceptions.md R156: no step raises UnsupportedOperation. -/
def Obligations.UnsupportedOperationIsNeverRaised : Prop :=
  ∀ s t : State, s.err ≠ some .unsupportedOperation → step s = .next t → t.err ≠ some .unsupportedOperation

/-! ## Memory and ALU -/

/-- 20_memory.md R41, R42: a read answers the cell or raises OutOfBounds(a) above 255; a write stores one cell, and
no other, keeping the canonical form, or raises OutOfBounds(a) above 255. -/
def Obligations.MemoryAccessChecksTheBound : Prop :=
  ∀ (m : Memory) (a : Nat) (v : Byte), m.wf = true →
    (a ≤ 255 → memRead m a = .ok (m.read a) ∧
      ∃ m', memWrite m a v = .ok m' ∧ m'.wf = true ∧ ∀ b, m'.read b = if b = a then v else m.read b) ∧
    (255 < a → memRead m a = .error ⟨.outOfBounds, a⟩ ∧ memWrite m a v = .error ⟨.outOfBounds, a⟩)

/-- 40_engine_decoder_alu.md R88: `compare` sets exactly one of equal, greater, less, by the unsigned values. The
places of the flags (log 5) and the direction of `G` and `L` are the spec's own decisions D2 and D11. -/
def Obligations.CompareSetsExactlyOneFlag : Prop :=
  ∀ u v : Byte,
    (u = v → aluCompare u v = 0x01) ∧ (v.toNat < u.toNat → aluCompare u v = 0x02) ∧
    (u.toNat < v.toNat → aluCompare u v = 0x04) ∧
    flagE (aluCompare u v) = decide (u = v) ∧ flagG (aluCompare u v) = decide (v.toNat < u.toNat) ∧
    flagL (aluCompare u v) = decide (u.toNat < v.toNat)

/-- 40_engine_decoder_alu.md R87, R89, R90: the ALU multiplies (and, under a tag no instruction presents, adds)
unsigned bytes modulo 256; every other tag is an UnsupportedOperation. That the ALU has the tags ADD and `other` is
the model's choice (log 3). The modulus 256 is the spec's own decision D1 (log 4). -/
def Obligations.AluAppliesModulo256 : Prop :=
  ∀ u v : Byte,
    (∃ r, aluApply .mul u v = .ok r ∧ r.toNat = u.toNat * v.toNat % 256) ∧
    (∃ r, aluApply .add u v = .ok r ∧ r.toNat = (u.toNat + v.toNat) % 256) ∧
    ∀ tag, ∃ r, aluApply (.other tag) u v = .error r ∧ r.kind = .unsupportedOperation

/-! ## The twelve instructions -/

/-- 41_system.md R100. -/
def Obligations.HaltAdvancesAndStops : Prop :=
  encode .halt = [0x01#8] ∧
  ∀ s : State, exec .halt s = .next { s with pc := s.pc + 1, status := .halted }

/-- 41_system.md R101. That the output is a list is the spec's own decision D14 (log 12), the index check first its D8
(log 4). -/
def Obligations.PrintRegisterEmitsTheValue : Prop :=
  ∀ a : Byte, encode (.printRegister a) = [0x47#8, a] ∧ RaisesOnIndex (.printRegister a) a ∧
  RaisesPastMemory 0x47 2 ∧
  ∀ (s : State) (h : a.toNat < 8),
    exec (.printRegister a) s = .next { s with out := s.out ++ [s.regs[a.toNat]], pc := s.pc + 2 }

/-- 42_data_movement.md R105. That the index is checked first is the spec's own decision D8 (log 4); the literal is
not checked. -/
def Obligations.LoadImmediateWritesTheLiteral : Prop :=
  ∀ a b : Byte, encode (.loadImmediate a b) = [0x82#8, a, b] ∧ RaisesOnIndex (.loadImmediate a b) a ∧
  RaisesPastMemory 0x82 3 ∧
  ∀ (s : State) (h : a.toNat < 8),
    exec (.loadImmediate a b) s = .next { s with regs := s.regs.set a.toNat b, pc := s.pc + 3 }

/-- 43_arithmetic.md R110. That the indices are checked first, `a` before `b`, and the modulus 256 are the spec's own
decisions D8, D7 and D1 (log 4). -/
def Obligations.MultiplyWritesTheLowProduct : Prop :=
  ∀ a b : Byte, encode (.multiply a b) = [0xA2#8, a, b] ∧ RaisesOnIndex (.multiply a b) a ∧
  (a.toNat < 8 → RaisesOnIndex (.multiply a b) b) ∧ RaisesPastMemory 0xA2 3 ∧
  ∀ (s : State) (ha : a.toNat < 8) (hb : b.toNat < 8),
    exec (.multiply a b) s = .next { s with
      regs := s.regs.set a.toNat (BitVec.ofNat 8 (s.regs[a.toNat].toNat * s.regs[b.toNat].toNat % 256)),
      pc := s.pc + 3 }

/-- 44_stack.md R121: the byte goes to the cell below the old `sp`, every other cell reads as before. That the index
is checked first and the error at `sp` = 0 only are the spec's own decisions D8, D7 and D9 (log 4). -/
def Obligations.PushStoresTheRegister : Prop :=
  ∀ a : Byte, encode (.push a) = [0x45#8, a] ∧ RaisesOnIndex (.push a) a ∧ RaisesPastMemory 0x45 2 ∧
  ∀ (s : State) (h : a.toNat < 8),
    (s.sp = 0 → exec (.push a) s = .next (errorState s .stackOverflow 0)) ∧
    (s.sp ≠ 0 → s.mem.wf = true → pushAddr s = s.sp.toNat - 1 ∧
      ∃ m : Memory, exec (.push a) s = .next { s with sp := s.sp - 1, mem := m, pc := s.pc + 2 } ∧
        ∀ b, m.read b = if b = pushAddr s then s.regs[a.toNat] else s.mem.read b)

/-- 44_stack.md R122. That the index is checked first and an error at `sp` = 255 only are the spec's own decisions D8
and D9 (log 4). -/
def Obligations.PopLoadsTheRegister : Prop :=
  ∀ a : Byte, encode (.pop a) = [0x46#8, a] ∧ RaisesOnIndex (.pop a) a ∧ RaisesPastMemory 0x46 2 ∧
  ∀ (s : State) (h : a.toNat < 8),
    (s.sp = 255 → exec (.pop a) s = .next (errorState s .stackUnderflow 255)) ∧
    (s.sp ≠ 255 → exec (.pop a) s = .next { s with
      regs := s.regs.set a.toNat (s.mem.read s.sp.toNat), sp := s.sp + 1, pc := s.pc + 2 })

/-- 45_call_return.md R130: the errors in their order, and the return address `p + 2` stored below the old `sp`. The
order of the errors, the index check, the error at `sp` = 0 only and the one at 254 are the spec's own decisions D7,
D8, D9 and D10 (log 4). -/
def Obligations.CallPushesTheReturnAddress : Prop :=
  ∀ a : Byte, encode (.call a) = [0x50#8, a] ∧ RaisesOnIndex (.call a) a ∧ RaisesPastMemory 0x50 2 ∧
  ∀ (s : State) (h : a.toNat < 8),
    (s.sp = 0 → exec (.call a) s = .next (errorState s .stackOverflow 0)) ∧
    (s.sp ≠ 0 → s.pc.toNat = 254 → exec (.call a) s = .next (errorState s .outOfBounds 256)) ∧
    (s.sp ≠ 0 → s.pc.toNat ≤ 253 → s.mem.wf = true → pushAddr s = s.sp.toNat - 1 ∧
      ∃ m : Memory, exec (.call a) s = .next { s with
          sp := s.sp - 1, mem := m, pc := s.regs[a.toNat].setWidth 9 } ∧
        ∀ b, m.read b = if b = pushAddr s then BitVec.ofNat 8 (s.pc.toNat + 2) else s.mem.read b)

/-- 45_call_return.md R131. An error at `sp` = 255 only is the spec's own D9 (log 4). -/
def Obligations.ReturnPopsTheProgramCounter : Prop :=
  encode .ret = [0x11#8] ∧
  ∀ s : State,
    (s.sp = 255 → exec .ret s = .next (errorState s .stackUnderflow 255)) ∧
    (s.sp ≠ 255 → exec .ret s = .next { s with
      sp := s.sp + 1, pc := (s.mem.read s.sp.toNat).setWidth 9 })

/-- 46_compare_branch.md R140. The numbers in `fl` are the spec's own decisions D2 and D11 (log 5), the index checks
first its D8 (log 4). -/
def Obligations.CompareRecordsTheOutcome : Prop :=
  ∀ a b : Byte, encode (.compare a b) = [0xA7#8, a, b] ∧ RaisesOnIndex (.compare a b) a ∧
  (a.toNat < 8 → RaisesOnIndex (.compare a b) b) ∧ RaisesPastMemory 0xA7 3 ∧
  ∀ (s : State) (ha : a.toNat < 8) (hb : b.toNat < 8),
    exec (.compare a b) s = .next { s with
      fl := if s.regs[a.toNat] = s.regs[b.toNat] then 0x01
        else if s.regs[b.toNat].toNat < s.regs[a.toNat].toNat then 0x02 else 0x04,
      pc := s.pc + 3 }

/-- 46_compare_branch.md R141. That an index above 7 raises first and is never masked is the spec's own decision D8
(log 4). -/
def Obligations.JumpGoesToTheRegistersValue : Prop :=
  ∀ a : Byte, encode (.jump a) = [0x54#8, a] ∧ RaisesOnIndex (.jump a) a ∧ RaisesPastMemory 0x54 2 ∧
  ∀ (s : State) (h : a.toNat < 8), exec (.jump a) s = .next { s with pc := s.regs[a.toNat].setWidth 9 }

/-- 46_compare_branch.md R142: the index is checked whether or not the jump is taken. `E` is bit 0 of `fl` by the
spec's own decision D2 (log 5), the check first by its D8 (log 4). -/
def Obligations.JumpIfEqualGoesByE : Prop :=
  ∀ a : Byte, encode (.jumpIfEqual a) = [0x55#8, a] ∧ RaisesOnIndex (.jumpIfEqual a) a ∧ RaisesPastMemory 0x55 2 ∧
  ∀ (s : State) (h : a.toNat < 8),
    (s.fl.getLsbD 0 = true → exec (.jumpIfEqual a) s = .next { s with pc := s.regs[a.toNat].setWidth 9 }) ∧
    (s.fl.getLsbD 0 = false → exec (.jumpIfEqual a) s = .next { s with pc := s.pc + 2 })

/-- 46_compare_branch.md R143: taken when `E` is clear, before any COMPARE too. `E` is bit 0 of `fl` by the spec's own
decision D2 (log 5), the check first by its D8 (log 4). -/
def Obligations.JumpIfNotEqualGoesByE : Prop :=
  ∀ a : Byte, encode (.jumpIfNotEqual a) = [0x56#8, a] ∧ RaisesOnIndex (.jumpIfNotEqual a) a ∧
  RaisesPastMemory 0x56 2 ∧
  ∀ (s : State) (h : a.toNat < 8),
    (s.fl.getLsbD 0 = false → exec (.jumpIfNotEqual a) s = .next { s with pc := s.regs[a.toNat].setWidth 9 }) ∧
    (s.fl.getLsbD 0 = true → exec (.jumpIfNotEqual a) s = .next { s with pc := s.pc + 2 })

/-! ## What every instruction leaves unchanged -/

/-- 40_engine_decoder_alu.md R83: an instruction with an illegal register index raises OutOfBounds of the first one,
`a` before `b`, with no other effect; a literal is no index. That the check is first and always made is the spec's own
decision D8 (log 4). -/
def Obligations.FirstIllegalIndexIsRaised : Prop :=
  ∀ (i : Instr) (s : State) (r : Byte), i.regOperands.find? (fun a => decide (7 < a.toNat)) = some r →
    exec i s = .next (errorState s .outOfBounds r.toNat)

/-- 10_state.md R25: only COMPARE changes the flags. -/
def Obligations.OnlyCompareWritesFlags : Prop :=
  ∀ (i : Instr) (s t : State), exec i s = .next t → (∀ a b, i ≠ .compare a b) → t.fl = s.fl

/-- 10_state.md R26: `sp` moves only by one, down by PUSH and CALL, up by POP and RETURN, and never wraps. -/
def Obligations.OnlyStackInstructionsMoveSp : Prop :=
  ∀ (i : Instr) (s t : State), exec i s = .next t →
    t.sp = s.sp ∨
    (((∃ a, i = .push a) ∨ ∃ a, i = .call a) ∧ t.sp.toNat + 1 = s.sp.toNat) ∨
    (((∃ a, i = .pop a) ∨ i = .ret) ∧ t.sp.toNat = s.sp.toNat + 1)

/-- 10_state.md R30, 20_memory.md R45: only PUSH and CALL write Memory, and they write one cell, the one at
`pushAddr`: every other address reads as before; every other instruction leaves every address as it was. -/
def Obligations.OnlyPushAndCallWriteOneCell : Prop :=
  ∀ (i : Instr) (s t : State), s.mem.wf = true → exec i s = .next t →
    ((∀ a, i ≠ .push a) → (∀ a, i ≠ .call a) → ∀ b, t.mem.read b = s.mem.read b) ∧
    ∀ b, b ≠ pushAddr s → t.mem.read b = s.mem.read b

/-- 10_state.md R23 (the table of register reads and writes): a register changes only as the destination of
LOAD_IMMEDIATE, MULTIPLY or POP. -/
def Obligations.OnlyTheDestinationRegisterChanges : Prop :=
  ∀ (i : Instr) (s t : State) (j : Nat) (h : j < 8), exec i s = .next t →
    (∀ a, destination i = some a → a.toNat ≠ j) → t.regs[j] = s.regs[j]

/-- 10_state.md R29: the output only grows, by the value of one PRINT_REGISTER, in execution order. -/
def Obligations.OnlyPrintRegisterEmits : Prop :=
  ∀ (i : Instr) (s t : State), exec i s = .next t →
    t.out = s.out ∨ ∃ a : Byte, i = .printRegister a ∧ t.out = s.out ++ [regAt s a]

/-- 10_state.md R24 (its table): the `pc` an instruction leaves, unchanged where it raises. The instruction's bytes
lie in Memory, as they do when `step` executes it. That `pc` reaches 256 and does not wrap is the spec's own decision
D4 (log 4). -/
def Obligations.ProgramCounterFollowsTheTable : Prop :=
  ∀ (i : Instr) (s t : State), s.err = none → s.pc.toNat + i.length ≤ 256 → exec i s = .next t →
    (t.err = none → t.pc.toNat = pcAfter i s) ∧ (t.err ≠ none → t.pc = s.pc)

/-- 10_state.md R29: the engine never reads `out`; two states that differ in earlier output step alike. -/
def Obligations.EngineNeverReadsOutput : Prop :=
  ∀ (s t : State) (earlier : List Byte), step s = .next t →
    step { s with out := earlier ++ s.out } = .next { t with out := earlier ++ t.out }

/-- 10_state.md R25: no instruction reads `G` or `L`: states that agree on all but the flags, and on `E`, step to
states that agree the same way. The places of the flags are the spec's own decision D2 (log 5). -/
def Obligations.GreaterAndLessAreNeverRead : Prop :=
  ∀ (s t : State) (f : Byte), flagE f = flagE s.fl → step s = .next t →
    ∃ g, step { s with fl := f } = .next { t with fl := g } ∧ flagE g = flagE t.fl

/-- 10_state.md R23, 70_reset_and_hazards.md R189: an instruction that does not name register 7 neither reads nor
writes it, the stack instructions included: `sp` is an element of its own. That `sp` is not register 7 is the spec's
own decision D3 (log 4). -/
def Obligations.RegisterSevenIsOnlyReachedByName : Prop :=
  ∀ (i : Instr) (s t : State) (v : Byte), (7 : Byte) ∉ i.regOperands → exec i s = .next t →
    exec i { s with regs := s.regs.set 7 v } = .next { t with regs := t.regs.set 7 v }

/-- 60_exceptions.md R157: which steps raise StackOverflow and StackUnderflow, and no others, with their numbers. The
policy is the spec's own decision D9 (log 4). -/
def Obligations.StackErrorsAreExactlyTheRangeErrors : Prop :=
  ∀ s t : State, s.err = none → step s = .next t →
    (t.err = some .stackOverflow ↔
      (s.mem.read s.pc.toNat = 0x45 ∨ s.mem.read s.pc.toNat = 0x50) ∧ s.pc.toNat ≤ 254 ∧
        (s.mem.read (s.pc.toNat + 1)).toNat ≤ 7 ∧ s.sp = 0) ∧
    (t.err = some .stackUnderflow ↔
      ((s.mem.read s.pc.toNat = 0x46 ∧ s.pc.toNat ≤ 254 ∧ (s.mem.read (s.pc.toNat + 1)).toNat ≤ 7) ∨
        (s.mem.read s.pc.toNat = 0x11 ∧ s.pc.toNat ≤ 255)) ∧ s.sp = 255) ∧
    (t.err = some .stackOverflow → t.errInfo = 0) ∧ (t.err = some .stackUnderflow → t.errInfo = 255)

/-! ## Instructions together -/

/-- 41_system.md R101 (the document's property): LOAD_IMMEDIATE r v and then PRINT_REGISTER r outputs exactly v. -/
def Obligations.LoadedLiteralIsPrinted : Prop :=
  ∀ (s : State) (r v : Byte), r.toNat < 8 →
    ∃ t u, exec (.loadImmediate r v) s = .next t ∧ exec (.printRegister r) t = .next u ∧ u.out = s.out ++ [v]

/-- 40_engine_decoder_alu.md R91, 43_arithmetic.md R110: MULTIPLY a b and MULTIPLY b a compute one number, the product
modulo 256. The modulus 256 is the spec's own decision D1 (log 4). -/
def Obligations.MultiplyCommutes : Prop :=
  ∀ (s : State) (a b : Byte) (ha : a.toNat < 8) (hb : b.toNat < 8),
    ∃ t u, exec (.multiply a b) s = .next t ∧ exec (.multiply b a) s = .next u ∧
      t.regs[a.toNat] = u.regs[b.toNat] ∧
      t.regs[a.toNat].toNat = s.regs[a.toNat].toNat * s.regs[b.toNat].toNat % 256

/-- 46_compare_branch.md R140, R142, R143 (the document's property): after a COMPARE, JUMP_IF_EQUAL branches and
JUMP_IF_NOT_EQUAL falls through when the registers are equal, and the other way round when they are not. -/
def Obligations.BranchesFollowTheComparison : Prop :=
  ∀ (s : State) (a b c : Byte) (ha : a.toNat < 8) (hb : b.toNat < 8) (hc : c.toNat < 8),
    ∃ t, exec (.compare a b) s = .next t ∧ t.pc = s.pc + 3 ∧
      (s.regs[a.toNat] = s.regs[b.toNat] →
        exec (.jumpIfEqual c) t = .next { t with pc := s.regs[c.toNat].setWidth 9 } ∧
        exec (.jumpIfNotEqual c) t = .next { t with pc := t.pc + 2 }) ∧
      (s.regs[a.toNat] ≠ s.regs[b.toNat] →
        exec (.jumpIfEqual c) t = .next { t with pc := t.pc + 2 } ∧
        exec (.jumpIfNotEqual c) t = .next { t with pc := s.regs[c.toNat].setWidth 9 })

/-- 44_stack.md R122 (a): N pushes and then N pops into the same registers in reverse order restore every register
and `sp`, and touch only the N cells below the old `sp`. -/
def Obligations.PushesAndPopsRoundTrip : Prop :=
  ∀ (rs : List Byte) (s : State), (∀ r ∈ rs, r.toNat < 8) → s.mem.wf = true → rs.length ≤ s.sp.toNat →
    ∃ t u, execAll (rs.map .push) s = .next t ∧ t.sp.toNat = s.sp.toNat - rs.length ∧ t.regs = s.regs ∧
      execAll (rs.reverse.map .pop) t = .next u ∧ u.sp = s.sp ∧ u.regs = s.regs ∧
      ∀ b, (b < s.sp.toNat - rs.length ∨ s.sp.toNat ≤ b) → u.mem.read b = s.mem.read b

/-- 45_call_return.md R131 (c): a RETURN from any later state with the stack as CALL left it resumes at the
instruction after the CALL, with `sp` as it was before the CALL. -/
def Obligations.ReturnResumesAfterTheCall : Prop :=
  ∀ (s : State) (a : Byte) (h : a.toNat < 8), s.sp ≠ 0 → s.pc.toNat ≤ 253 → s.mem.wf = true →
    ∃ t, exec (.call a) s = .next t ∧ t.pc.toNat = s.regs[a.toNat].toNat ∧
      ∀ u : State, u.sp = t.sp → u.mem.read t.sp.toNat = t.mem.read t.sp.toNat →
        ∃ v, exec .ret u = .next v ∧ v.pc.toNat = s.pc.toNat + 2 ∧ v.sp = s.sp

/-- 46_compare_branch.md R141 (c): a JUMP whose register holds the JUMP's own address changes no state. The general
sentences of R81 and R92 say otherwise (log 9). -/
def Obligations.JumpToItselfChangesNothing : Prop :=
  ∀ (s : State) (a : Byte) (h : a.toNat < 8), s.regs[a.toNat].toNat = s.pc.toNat → exec (.jump a) s = .next s

/-- 20_memory.md R50: a byte pushed over an instruction is what the next fetch there reads: where it is no opcode,
that fetch raises DecodeError of it. -/
def Obligations.PushedByteIsWhatIsFetched : Prop :=
  ∀ (s : State) (a : Byte) (h : a.toNat < 8), s.sp ≠ 0 → s.mem.wf = true → s.status = .running →
    ∃ t, exec (.push a) s = .next t ∧
      ∀ u : State, u.mem = t.mem → u.status = .running → u.pc.toNat = pushAddr s →
        illegalOpcode s.regs[a.toNat].toNat = true →
          step u = .next (errorState u .decodeError s.regs[a.toNat].toNat)
end

