-- ==== Sys2Proof/Laws/Memory.lean ====
section
/-! SUPPORT. The laws of memory: a read after a write, the canonical form kept by every operation, and equal reads
give equal memories. -/

namespace Sys2Proof.Machine

@[simp] theorem Memory.read_nil (a : Nat) : Memory.read [] a = 0#8 := rfl

@[simp] theorem Memory.read_cons (k : Nat) (v : Byte) (m : Memory) (a : Nat) :
    Memory.read ((k, v) :: m) a = if k = a then v else m.read a := rfl

@[simp] theorem Memory.wfFrom_nil (lo : Nat) : Memory.wfFrom lo [] = true := rfl

@[simp] theorem Memory.wfFrom_cons (lo k : Nat) (v : Byte) (m : Memory) :
    Memory.wfFrom lo ((k, v) :: m) = true ↔
      lo ≤ k ∧ k < 256 ∧ v ≠ 0#8 ∧ Memory.wfFrom (k + 1) m = true := by
  simp [Memory.wfFrom, and_assoc]

/-- A canonical memory from an address on is canonical from any earlier one. -/
theorem Memory.wfFrom_mono {lo lo' : Nat} {m : Memory} (h : Memory.wfFrom lo m = true) (hl : lo' ≤ lo) :
    Memory.wfFrom lo' m = true := by
  cases m with
  | nil => rfl
  | cons c m =>
    obtain ⟨k, v⟩ := c
    simp only [Memory.wfFrom_cons] at h ⊢
    exact ⟨by omega, h.2⟩

/-- Below its first possible address a canonical memory lists nothing. -/
theorem Memory.read_below {lo : Nat} {m : Memory} (h : Memory.wfFrom lo m = true) {a : Nat} (ha : a < lo) :
    m.read a = 0#8 := by
  induction m generalizing lo with
  | nil => rfl
  | cons c m ih =>
    obtain ⟨k, v⟩ := c
    simp only [Memory.wfFrom_cons] at h
    have hne : ¬ k = a := by omega
    simp only [Memory.read_cons, hne, if_false]
    exact ih h.2.2.2 (by omega)

theorem Memory.read_write_from {lo : Nat} {m : Memory} (h : Memory.wfFrom lo m = true) (a b : Nat) (v : Byte) :
    (m.write a v).read b = if b = a then v else m.read b := by
  induction m generalizing lo with
  | nil =>
    simp only [Memory.write]
    split <;> simp only [Memory.read_cons, Memory.read_nil] <;> grind
  | cons c m ih =>
    obtain ⟨k, w⟩ := c
    simp only [Memory.wfFrom_cons] at h
    obtain ⟨-, -, -, hm⟩ := h
    simp only [Memory.write]
    split
    · rename_i hlt
      have h0 : Memory.read m a = 0#8 := Memory.read_below hm (by omega)
      split <;> simp only [Memory.read_cons] <;> grind
    · split
      · rename_i hge heq
        have h0 : Memory.read m a = 0#8 := Memory.read_below hm (by omega)
        split <;> simp only [Memory.read_cons] <;> grind
      · simp only [Memory.read_cons, ih hm]
        grind

/-- A read after a write: the byte written there, the old byte everywhere else (20_memory.md R42). -/
theorem Memory.read_write {m : Memory} (h : m.wf = true) (a b : Nat) (v : Byte) :
    (m.write a v).read b = if b = a then v else m.read b :=
  Memory.read_write_from h a b v

theorem Memory.write_wfFrom {lo : Nat} {m : Memory} (h : Memory.wfFrom lo m = true) {a : Nat} (hl : lo ≤ a)
    (ha : a < 256) (v : Byte) : Memory.wfFrom lo (m.write a v) = true := by
  induction m generalizing lo with
  | nil => by_cases hv : v = 0#8 <;> simp_all [Memory.write]
  | cons c m ih =>
    obtain ⟨k, w⟩ := c
    simp only [Memory.wfFrom_cons] at h
    obtain ⟨hlo, hk, hw, hm⟩ := h
    simp only [Memory.write]
    split
    · split
      · exact (Memory.wfFrom_cons ..).2 ⟨hlo, hk, hw, hm⟩
      · rename_i hlt hv
        exact (Memory.wfFrom_cons ..).2
          ⟨hl, ha, hv, (Memory.wfFrom_cons ..).2 ⟨by omega, hk, hw, hm⟩⟩
    · split
      · rename_i hge heq
        subst heq
        split
        · exact Memory.wfFrom_mono hm (by omega)
        · rename_i hv
          exact (Memory.wfFrom_cons ..).2 ⟨hl, ha, hv, hm⟩
      · exact (Memory.wfFrom_cons ..).2 ⟨hlo, hk, hw, ih hm (by omega)⟩

/-- A write below 256 keeps the canonical form. -/
theorem Memory.write_wf {m : Memory} (h : m.wf = true) {a : Nat} (ha : a < 256) (v : Byte) :
    (m.write a v).wf = true :=
  Memory.write_wfFrom h (Nat.zero_le a) ha v

/-- Storing bytes keeps the canonical form. -/
theorem storeBytes_wf {m : Memory} (h : m.wf = true) (a : Nat) (bs : List Byte) : (storeBytes m a bs).wf = true := by
  induction bs generalizing m a with
  | nil => exact h
  | cons v vs ih =>
    apply ih
    split
    · exact Memory.write_wf h (by assumption) v
    · exact h

theorem Memory.ext_from {lo : Nat} {m n : Memory} (hm : Memory.wfFrom lo m = true) (hn : Memory.wfFrom lo n = true)
    (h : ∀ a, m.read a = n.read a) : m = n := by
  induction m generalizing n lo with
  | nil =>
    cases n with
    | nil => rfl
    | cons c n =>
      obtain ⟨k, v⟩ := c
      have := h k
      simp_all
  | cons c m ih =>
    obtain ⟨k, v⟩ := c
    cases n with
    | nil =>
      have := h k
      simp_all
    | cons d n =>
      obtain ⟨l, w⟩ := d
      simp only [Memory.wfFrom_cons] at hm hn
      obtain ⟨-, -, hv, hm'⟩ := hm
      obtain ⟨-, -, hw, hn'⟩ := hn
      have hk := h k
      have hl := h l
      simp only [Memory.read_cons] at hk hl
      have hkl : k = l := by
        rcases Nat.lt_trichotomy k l with hlt | heq | hgt
        · have := Memory.read_below hn' (show k < l + 1 by omega)
          grind
        · exact heq
        · have := Memory.read_below hm' (show l < k + 1 by omega)
          grind
      subst hkl
      have hvw : v = w := by simpa using hk
      subst hvw
      congr 1
      refine ih hm' hn' fun a => ?_
      by_cases hka : k = a
      · rw [Memory.read_below hm' (by omega), Memory.read_below hn' (by omega)]
      · have := h a
        simpa [hka] using this

/-- Canonical memories that read alike are equal data. -/
theorem Memory.ext {m n : Memory} (hm : m.wf = true) (hn : n.wf = true) (h : ∀ a, m.read a = n.read a) : m = n :=
  Memory.ext_from hm hn h

end Sys2Proof.Machine
end

