-- ==== Sys2Proof/Laws/State.lean ====
section
/-! SUPPORT. One lemma per field per named update of the state, true by rfl, and the registers after a write. -/

namespace Sys2Proof.Machine

variable (s : State)

@[simp] theorem State.setReg_mem (i : Fin 8) (v : Byte) : (s.setReg i v).mem = s.mem := rfl
@[simp] theorem State.setReg_regs (i : Fin 8) (v : Byte) : (s.setReg i v).regs = s.regs.set i v := rfl
@[simp] theorem State.setReg_fl (i : Fin 8) (v : Byte) : (s.setReg i v).fl = s.fl := rfl
@[simp] theorem State.setReg_pc (i : Fin 8) (v : Byte) : (s.setReg i v).pc = s.pc := rfl
@[simp] theorem State.setReg_sp (i : Fin 8) (v : Byte) : (s.setReg i v).sp = s.sp := rfl
@[simp] theorem State.setReg_status (i : Fin 8) (v : Byte) : (s.setReg i v).status = s.status := rfl
@[simp] theorem State.setReg_err (i : Fin 8) (v : Byte) : (s.setReg i v).err = s.err := rfl
@[simp] theorem State.setReg_errInfo (i : Fin 8) (v : Byte) : (s.setReg i v).errInfo = s.errInfo := rfl
@[simp] theorem State.setReg_out (i : Fin 8) (v : Byte) : (s.setReg i v).out = s.out := rfl

@[simp] theorem State.setFl_mem (v : Byte) : (s.setFl v).mem = s.mem := rfl
@[simp] theorem State.setFl_regs (v : Byte) : (s.setFl v).regs = s.regs := rfl
@[simp] theorem State.setFl_fl (v : Byte) : (s.setFl v).fl = v := rfl
@[simp] theorem State.setFl_pc (v : Byte) : (s.setFl v).pc = s.pc := rfl
@[simp] theorem State.setFl_sp (v : Byte) : (s.setFl v).sp = s.sp := rfl
@[simp] theorem State.setFl_status (v : Byte) : (s.setFl v).status = s.status := rfl
@[simp] theorem State.setFl_err (v : Byte) : (s.setFl v).err = s.err := rfl
@[simp] theorem State.setFl_errInfo (v : Byte) : (s.setFl v).errInfo = s.errInfo := rfl
@[simp] theorem State.setFl_out (v : Byte) : (s.setFl v).out = s.out := rfl

@[simp] theorem State.advance_mem (n : Nat) : (s.advance n).mem = s.mem := rfl
@[simp] theorem State.advance_regs (n : Nat) : (s.advance n).regs = s.regs := rfl
@[simp] theorem State.advance_fl (n : Nat) : (s.advance n).fl = s.fl := rfl
@[simp] theorem State.advance_pc (n : Nat) : (s.advance n).pc = s.pc + BitVec.ofNat 9 n := rfl
@[simp] theorem State.advance_sp (n : Nat) : (s.advance n).sp = s.sp := rfl
@[simp] theorem State.advance_status (n : Nat) : (s.advance n).status = s.status := rfl
@[simp] theorem State.advance_err (n : Nat) : (s.advance n).err = s.err := rfl
@[simp] theorem State.advance_errInfo (n : Nat) : (s.advance n).errInfo = s.errInfo := rfl
@[simp] theorem State.advance_out (n : Nat) : (s.advance n).out = s.out := rfl

@[simp] theorem State.jumpTo_mem (t : Byte) : (s.jumpTo t).mem = s.mem := rfl
@[simp] theorem State.jumpTo_regs (t : Byte) : (s.jumpTo t).regs = s.regs := rfl
@[simp] theorem State.jumpTo_fl (t : Byte) : (s.jumpTo t).fl = s.fl := rfl
@[simp] theorem State.jumpTo_pc (t : Byte) : (s.jumpTo t).pc = zext9 t := rfl
@[simp] theorem State.jumpTo_sp (t : Byte) : (s.jumpTo t).sp = s.sp := rfl
@[simp] theorem State.jumpTo_status (t : Byte) : (s.jumpTo t).status = s.status := rfl
@[simp] theorem State.jumpTo_err (t : Byte) : (s.jumpTo t).err = s.err := rfl
@[simp] theorem State.jumpTo_errInfo (t : Byte) : (s.jumpTo t).errInfo = s.errInfo := rfl
@[simp] theorem State.jumpTo_out (t : Byte) : (s.jumpTo t).out = s.out := rfl

@[simp] theorem State.emit_mem (v : Byte) : (s.emit v).mem = s.mem := rfl
@[simp] theorem State.emit_regs (v : Byte) : (s.emit v).regs = s.regs := rfl
@[simp] theorem State.emit_fl (v : Byte) : (s.emit v).fl = s.fl := rfl
@[simp] theorem State.emit_pc (v : Byte) : (s.emit v).pc = s.pc := rfl
@[simp] theorem State.emit_sp (v : Byte) : (s.emit v).sp = s.sp := rfl
@[simp] theorem State.emit_status (v : Byte) : (s.emit v).status = s.status := rfl
@[simp] theorem State.emit_err (v : Byte) : (s.emit v).err = s.err := rfl
@[simp] theorem State.emit_errInfo (v : Byte) : (s.emit v).errInfo = s.errInfo := rfl
@[simp] theorem State.emit_out (v : Byte) : (s.emit v).out = s.out ++ [v] := rfl

@[simp] theorem State.raised_mem (r : Raise) : (s.raised r).mem = s.mem := rfl
@[simp] theorem State.raised_regs (r : Raise) : (s.raised r).regs = s.regs := rfl
@[simp] theorem State.raised_fl (r : Raise) : (s.raised r).fl = s.fl := rfl
@[simp] theorem State.raised_pc (r : Raise) : (s.raised r).pc = s.pc := rfl
@[simp] theorem State.raised_sp (r : Raise) : (s.raised r).sp = s.sp := rfl
@[simp] theorem State.raised_status (r : Raise) : (s.raised r).status = .halted := rfl
@[simp] theorem State.raised_err (r : Raise) : (s.raised r).err = some r.kind := rfl
@[simp] theorem State.raised_errInfo (r : Raise) : (s.raised r).errInfo = r.info := rfl
@[simp] theorem State.raised_out (r : Raise) : (s.raised r).out = s.out := rfl

@[simp] theorem State.reg_def (i : Fin 8) : s.reg i = s.regs[i] := rfl

/-- A register read after a register write: the written value there, the old value elsewhere. -/
theorem State.getElem_setReg (i j : Fin 8) (v : Byte) :
    (s.setReg i v).regs[j] = if i = j then v else s.regs[j] := by
  simp [Vector.getElem_set, Fin.ext_iff]

end Sys2Proof.Machine
end

