-- ==== Sys2Proof/Laws/Ops.lean ====
section
/-! SUPPORT. One lemma for each shared operation that says everything it can do; later proofs cite these. -/

namespace Sys2Proof.Machine

@[simp] theorem except_ok_bind {α β : Type} (x : α) (f : α → Except Raise β) : (Except.ok x >>= f) = f x := rfl

@[simp] theorem except_error_bind {α β : Type} (r : Raise) (f : α → Except Raise β) :
    ((Except.error r : Except Raise α) >>= f) = .error r := rfl

@[simp] theorem except_pure {α : Type} (x : α) : (pure x : Except Raise α) = .ok x := rfl

@[simp] theorem finish_ok (s t : State) : finish s (.ok t) = .next t := rfl

@[simp] theorem finish_error (s : State) (r : Raise) : finish s (.error r) = .next (s.raised r) := rfl

/-- An instruction's end is always a next state: the one it computed or the one its error leaves. -/
theorem finish_cases {s t : State} {e : Except Raise State} (h : finish s e = .next t) :
    e = .ok t ∨ ∃ r, e = .error r ∧ t = s.raised r := by
  cases e with
  | ok u => simpa using h
  | error r => exact .inr ⟨r, rfl, by simpa using h.symm⟩

theorem checkReg_legal {a : RegByte} (h : a.toNat < 8) : checkReg a = .ok ⟨a.toNat, h⟩ := dif_pos h

theorem checkReg_illegal {a : RegByte} (h : 7 < a.toNat) : checkReg a = .error ⟨.outOfBounds, a.toNat⟩ :=
  dif_neg (by omega)

/-- The register-operand check answers the index itself or raises on it. -/
theorem checkReg_cases (a : RegByte) :
    (∃ h : a.toNat < 8, checkReg a = .ok ⟨a.toNat, h⟩) ∨
      (7 < a.toNat ∧ checkReg a = .error ⟨.outOfBounds, a.toNat⟩) := by
  by_cases h : a.toNat < 8
  · exact .inl ⟨h, checkReg_legal h⟩
  · exact .inr ⟨by omega, checkReg_illegal (by omega)⟩

theorem memRead_inside (m : Memory) {a : Nat} (h : a < 256) : memRead m a = .ok (m.read a) := if_pos h

theorem memRead_outside (m : Memory) {a : Nat} (h : 255 < a) : memRead m a = .error ⟨.outOfBounds, a⟩ :=
  if_neg (by simp; omega)

theorem memWrite_inside (m : Memory) {a : Nat} (h : a < 256) (v : Byte) : memWrite m a v = .ok (m.write a v) :=
  if_pos h

/-- An 8-bit address is always inside Memory. -/
@[simp] theorem memRead_byte (m : Memory) (a : Byte) : memRead m a.toNat = .ok (m.read a.toNat) :=
  memRead_inside m a.isLt

theorem pushAddr_lt (s : State) : pushAddr s < 256 := (s.sp - 1).isLt

theorem pushAddr_eq {s : State} (h : s.sp ≠ 0) : pushAddr s = s.sp.toNat - 1 := by
  unfold pushAddr
  bv_omega

/-- A push stores one byte at `pushAddr` and moves `sp` down; its MemWrite never raises (44_stack.md R121). -/
@[simp] theorem pushByte_eq (s : State) (v : Byte) :
    pushByte s v = .ok { s with sp := s.sp - 1, mem := s.mem.write (pushAddr s) v } := by
  simp [pushByte, memWrite_inside _ (pushAddr_lt s)]

/-- A pop reads the byte at `sp` and moves `sp` up; its MemRead never raises (44_stack.md R122). -/
@[simp] theorem popByte_eq (s : State) :
    popByte s = .ok (s.mem.read s.sp.toNat, { s with sp := s.sp + 1 }) := by
  simp [popByte]

theorem checkPushRoom_full {s : State} (h : s.sp = 0) : checkPushRoom s = .error ⟨.stackOverflow, 0⟩ := if_pos h

theorem checkPushRoom_room {s : State} (h : s.sp ≠ 0) : checkPushRoom s = .ok () := if_neg h

theorem checkPopEntry_end {s : State} (h : s.sp = 255) : checkPopEntry s = .error ⟨.stackUnderflow, 255⟩ := if_pos h

theorem checkPopEntry_entry {s : State} (h : s.sp ≠ 255) : checkPopEntry s = .ok () := if_neg h

theorem returnAddress_inside {s : State} (h : s.pc.toNat ≤ 253) :
    returnAddress s = .ok (BitVec.ofNat 8 (s.pc.toNat + 2)) := if_neg (by omega)

theorem returnAddress_outside {s : State} (h : 253 < s.pc.toNat) :
    returnAddress s = .error ⟨.outOfBounds, s.pc.toNat + 2⟩ := if_pos (by omega)

theorem decodeStage_some {op : Byte} {d : Descriptor} (h : decodeOpcode op = some d) : decodeStage op = .ok d := by
  simp [decodeStage, h]

theorem decodeStage_none {op : Byte} (h : decodeOpcode op = none) : decodeStage op = .error ⟨.decodeError, op.toNat⟩ := by
  simp [decodeStage, h]

/-- While RUNNING a step is a fetch and then the instruction, or the fetch's error. -/
theorem step_running {s : State} (h : s.status = .running) : step s = fetchThen s exec := by
  simp [step, h]

theorem step_fetched {s : State} {i : Instr} (h : s.status = .running) (hf : fetch s = .ok i) : step s = exec i s := by
  simp [step, h, fetchThen, hf]

theorem step_fetch_error {s : State} {r : Raise} (h : s.status = .running) (hf : fetch s = .error r) :
    step s = .next (s.raised r) := by
  simp [step, h, fetchThen, hf, raise]

/-- A step to a next state starts in RUNNING and is the fetched instruction's or the error's of the fetch. -/
theorem step_cases {s t : State} (h : step s = .next t) :
    s.status = .running ∧
      ((∃ i, fetch s = .ok i ∧ exec i s = .next t) ∨ ∃ r, fetch s = .error r ∧ t = s.raised r) := by
  cases hs : s.status with
  | halted => simp [step, hs, noStep] at h
  | running =>
    refine ⟨rfl, ?_⟩
    cases hf : fetch s with
    | ok i => exact .inl ⟨i, rfl, by rwa [step_fetched hs hf] at h⟩
    | error r => exact .inr ⟨r, rfl, by simpa [step_fetch_error hs hf] using h.symm⟩

end Sys2Proof.Machine
end

