-- ==== Sys2Proof/Laws/Exec.lean ====
section
/-! SUPPORT. What fetching and executing can answer, said once: every later proof about `exec` or `step` takes its
cases from here instead of unfolding a meaning. -/

namespace Sys2Proof.Machine

/-- A descriptor comes from a row of the decode table. -/
theorem decodeOpcode_cases {op : Byte} {d : Descriptor} (h : decodeOpcode op = some d) : (op, d) ∈ opcodeTable := by
  unfold decodeOpcode at h
  rw [Option.map_eq_some_iff] at h
  obtain ⟨⟨o, d'⟩, hf, rfl⟩ := h
  have h1 := List.find?_some hf
  have h2 := List.mem_of_find?_eq_some hf
  simp at h1; subst h1; exact h2

/-- Every row of the decode table agrees with the encoder: the operand count is at most 2 and gives the length, and
the opcode is the encoding's first byte (30_encoding.md R61, R64; 40_engine_decoder_alu.md R85). -/
theorem opcodeTable_row : ∀ row ∈ opcodeTable,
    row.2.n ≤ 2 ∧ (row.2.id.build 0 0).length = row.2.n + 1 ∧ (encode (row.2.id.build 0 0)).head? = some row.1 := by
  decide

/-- An instruction's length is its identity's, whatever the operand bytes. -/
theorem build_length (id : OpId) (a b : Byte) : (id.build a b).length = (id.build 0 0).length := by
  cases id <;> rfl

/-- An operand byte beyond the instruction's length has no influence (30_encoding.md R61). -/
theorem build_congr (id : OpId) {a b a' b' : Byte} (ha : (id.build 0 0).length ≤ 1 ∨ a = a')
    (hb : (id.build 0 0).length ≤ 2 ∨ b = b') : id.build a b = id.build a' b' := by
  cases id <;> simp_all [OpId.build, Instr.length]

/-- An encoding is the opcode and then as many operand bytes as the length has room for. -/
theorem encode_build {id : OpId} {op : Byte} (h : (encode (id.build 0 0)).head? = some op) (a b : Byte) :
    encode (id.build a b) = [op, a, b].take (id.build a b).length := by
  cases id <;> cases h <;> rfl

/-- The three things a fetch can answer (60_exceptions.md R158, places 1 to 4): past Memory's end at the opcode, an
illegal opcode, or an opcode of the table whose operands lie in Memory or do not. -/
theorem fetch_cases (s : State) :
    (255 < s.pc.toNat ∧ fetch s = .error ⟨.outOfBounds, s.pc.toNat⟩) ∨
    (s.pc.toNat ≤ 255 ∧ decodeOpcode (s.mem.read s.pc.toNat) = none ∧
      fetch s = .error ⟨.decodeError, (s.mem.read s.pc.toNat).toNat⟩) ∨
    ∃ d, s.pc.toNat ≤ 255 ∧ (s.mem.read s.pc.toNat, d) ∈ opcodeTable ∧
      decodeOpcode (s.mem.read s.pc.toNat) = some d ∧
      ((256 < s.pc.toNat + 1 + d.n ∧ fetch s = .error ⟨.outOfBounds, 256⟩) ∨
       (s.pc.toNat + 1 + d.n ≤ 256 ∧
        fetch s = .ok (d.id.build (s.mem.read (s.pc.toNat + 1)) (s.mem.read (s.pc.toNat + 2))))) := by
  by_cases hp : 255 < s.pc.toNat
  · exact .inl ⟨hp, by simp [fetch, memRead_outside _ hp]⟩
  · right
    have hp' : s.pc.toNat < 256 := by omega
    cases hd : decodeOpcode (s.mem.read s.pc.toNat) with
    | none => exact .inl ⟨by omega, rfl, by simp [fetch, memRead_inside _ hp', decodeStage_none hd]⟩
    | some d =>
      right
      have hm := decodeOpcode_cases hd
      refine ⟨d, by omega, hm, rfl, ?_⟩
      obtain ⟨hle, hlen, -⟩ := opcodeTable_row _ hm
      dsimp only at hle hlen
      have hn : d.n = 0 ∨ d.n = 1 ∨ d.n = 2 := by omega
      have hb : ∀ a b a' b', (d.n ≤ 0 ∨ a = a') → (d.n ≤ 1 ∨ b = b') → d.id.build a b = d.id.build a' b' :=
        fun a b a' b' h1 h2 => build_congr d.id (by rw [hlen]; simpa using h1) (by rw [hlen]; simpa using h2)
      simp only [fetch, memRead_inside _ hp', decodeStage_some hd, except_ok_bind, fetchOperand]
      rcases hn with hn | hn | hn <;> simp only [hn]
      · right; refine ⟨by omega, ?_⟩; simp; exact hb _ _ _ _ (by omega) (by omega)
      · by_cases h1 : s.pc.toNat + 1 < 256
        · right; refine ⟨by omega, ?_⟩; simp [memRead_inside _ h1]; exact hb _ _ _ _ (by simp) (by omega)
        · left; refine ⟨by omega, ?_⟩
          have : s.pc.toNat + 1 = 256 := by omega
          simp [memRead, this]
      · by_cases h1 : s.pc.toNat + 1 < 256
        · by_cases h2 : s.pc.toNat + 2 < 256
          · right; refine ⟨by omega, ?_⟩; simp [memRead_inside _ h1, memRead_inside _ h2]
          · left; refine ⟨by omega, ?_⟩
            have : s.pc.toNat + 2 = 256 := by omega
            rw [if_pos (by omega), if_pos (by omega), memRead_inside _ h1]; simp [memRead, this]
        · left; refine ⟨by omega, ?_⟩
          have : s.pc.toNat + 1 = 256 := by omega
          simp [memRead, this]

/-- A fetched instruction lies in Memory, and its encoding is the bytes at `pc`. -/
theorem fetch_encoded {s : State} {i : Instr} (hf : fetch s = .ok i) :
    s.pc.toNat + i.length ≤ 256 ∧
      encode i = [s.mem.read s.pc.toNat, s.mem.read (s.pc.toNat + 1), s.mem.read (s.pc.toNat + 2)].take i.length := by
  rcases fetch_cases s with ⟨hp', hf'⟩ | ⟨hp', hd', hf'⟩ | ⟨d', hp', hm, hd', h⟩
  · simp_all
  · simp_all
  · rcases h with ⟨_, h⟩ | ⟨hl, h⟩
    · simp_all
    · rw [hf] at h; cases h
      obtain ⟨-, hlen, hop⟩ := opcodeTable_row _ hm
      exact ⟨by rw [build_length, hlen]; dsimp only; omega, encode_build hop _ _⟩

/-- The errors an instruction raises once it is fetched, each with its condition (60_exceptions.md R158, places 5 to
8). -/
def ErrorCause (i : Instr) (s : State) (k : ErrorKind) (n : Nat) : Prop :=
  (∃ r, i.regOperands.find? (fun a => decide (7 < a.toNat)) = some r ∧ k = .outOfBounds ∧ n = r.toNat) ∨
  (i.wellFormed = true ∧
    ((((∃ a, i = .push a) ∨ ∃ a, i = .call a) ∧ s.sp = 0 ∧ k = .stackOverflow ∧ n = 0) ∨
     (((∃ a, i = .pop a) ∨ i = .ret) ∧ s.sp = 255 ∧ k = .stackUnderflow ∧ n = 255) ∨
     ((∃ a, i = .call a) ∧ s.sp ≠ 0 ∧ 253 < s.pc.toNat ∧ k = .outOfBounds ∧ n = s.pc.toNat + 2)))

/-- The next state of an instruction that raises nothing, element by element. -/
def Effect (i : Instr) (s t : State) : Prop :=
  match i with
  | .halt => t = { s with pc := s.pc + 1, status := .halted }
  | .ret => s.sp ≠ 255 ∧ t = { s with sp := s.sp + 1, pc := zext9 (s.mem.read s.sp.toNat) }
  | .push a =>
    s.sp ≠ 0 ∧ t = { s with sp := s.sp - 1, mem := s.mem.write (pushAddr s) (regAt s a), pc := s.pc + 2 }
  | .pop a =>
    s.sp ≠ 255 ∧ ∃ h : a.toNat < 8, t = { s with
      regs := s.regs.set a.toNat (s.mem.read s.sp.toNat), sp := s.sp + 1, pc := s.pc + 2 }
  | .printRegister a => t = { s with out := s.out ++ [regAt s a], pc := s.pc + 2 }
  | .call a =>
    s.sp ≠ 0 ∧ s.pc.toNat ≤ 253 ∧ t = { s with
      sp := s.sp - 1, mem := s.mem.write (pushAddr s) (BitVec.ofNat 8 (s.pc.toNat + 2)), pc := zext9 (regAt s a) }
  | .jump a => t = { s with pc := zext9 (regAt s a) }
  | .jumpIfEqual a => t = { s with pc := if flagE s.fl then zext9 (regAt s a) else s.pc + 2 }
  | .jumpIfNotEqual a => t = { s with pc := if flagE s.fl then s.pc + 2 else zext9 (regAt s a) }
  | .loadImmediate a b => ∃ h : a.toNat < 8, t = { s with regs := s.regs.set a.toNat b, pc := s.pc + 3 }
  | .multiply a b =>
    ∃ h : a.toNat < 8, t = { s with
      regs := s.regs.set a.toNat (BitVec.ofNat 8 ((regAt s a).toNat * (regAt s b).toNat)), pc := s.pc + 3 }
  | .compare a b => t = { s with fl := compareFlags (regAt s a) (regAt s b), pc := s.pc + 3 }

/-- An instruction that begins with the register-operand check goes on with the register or raises on the index. -/
theorem checked_cases {s t : State} {a : RegByte} {f : Fin 8 → Except Raise State}
    (h : finish s (checkReg a >>= f) = .next t) :
    (∃ ha : a.toNat < 8, finish s (f ⟨a.toNat, ha⟩) = .next t) ∨
      (7 < a.toNat ∧ t = errorState s .outOfBounds a.toNat) := by
  rcases checkReg_cases a with ⟨ha, hc⟩ | ⟨ha, hc⟩ <;> rw [hc] at h
  · exact .inl ⟨ha, h⟩
  · simp only [except_error_bind, finish_error, Host.Outcome.next.injEq] at h
    exact .inr ⟨ha, h.symm⟩

theorem errorCause_first {i : Instr} {s : State} {a : RegByte} {l : List RegByte} (hi : i.regOperands = a :: l)
    (ha : 7 < a.toNat) : ErrorCause i s .outOfBounds a.toNat :=
  .inl ⟨a, by simp [hi, ha], rfl, rfl⟩

theorem errorCause_second {i : Instr} {s : State} {a b : RegByte} (hi : i.regOperands = [a, b]) (ha : a.toNat < 8)
    (hb : 7 < b.toNat) : ErrorCause i s .outOfBounds b.toNat :=
  .inl ⟨b, by simp [hi, hb, show ¬ 7 < a.toNat by omega], rfl, rfl⟩

theorem wellFormed_one {i : Instr} {a : RegByte} (hi : i.regOperands = [a]) (ha : a.toNat < 8) :
    i.wellFormed = true := by
  simp [Instr.wellFormed, hi, RegByte.legal, ha]

theorem wellFormed_two {i : Instr} {a b : RegByte} (hi : i.regOperands = [a, b]) (ha : a.toNat < 8)
    (hb : b.toNat < 8) : i.wellFormed = true := by
  simp [Instr.wellFormed, hi, RegByte.legal, ha, hb]

/-- What executing an instruction can answer: the state its error leaves, or its effect. -/
theorem exec_cases {i : Instr} {s t : State} (h : exec i s = .next t) :
    (∃ k n, t = errorState s k n ∧ ErrorCause i s k n) ∨ (i.wellFormed = true ∧ Effect i s t) := by
  cases i with
  | halt =>
    simp only [exec, execHalt, Host.Outcome.next.injEq] at h
    exact .inr ⟨rfl, h.symm⟩
  | ret =>
    by_cases hs : s.sp = 255
    · simp only [exec, execRet, checkPopEntry_end hs, except_error_bind, finish_error,
        Host.Outcome.next.injEq] at h
      exact .inl ⟨_, _, h.symm, .inr ⟨rfl, .inr (.inl ⟨.inr rfl, hs, rfl, rfl⟩)⟩⟩
    · simp only [exec, execRet, checkPopEntry_entry hs, popByte_eq, except_ok_bind, except_pure, finish_ok,
        Host.Outcome.next.injEq] at h
      exact .inr ⟨rfl, hs, h.symm⟩
  | push a =>
    rcases checked_cases h with ⟨ha, h⟩ | ⟨ha, rfl⟩
    · by_cases hs : s.sp = 0
      · simp only [checkPushRoom_full hs, except_error_bind, finish_error, Host.Outcome.next.injEq] at h
        exact .inl ⟨_, _, h.symm, .inr ⟨wellFormed_one rfl ha, .inl ⟨.inl ⟨a, rfl⟩, hs, rfl, rfl⟩⟩⟩
      · simp only [checkPushRoom_room hs, pushByte_eq, except_ok_bind, except_pure, finish_ok,
          Host.Outcome.next.injEq] at h
        exact .inr ⟨wellFormed_one rfl ha, hs, by simp [regAt, ha, ← h, State.advance]⟩
    · exact .inl ⟨_, _, rfl, errorCause_first rfl ha⟩
  | pop a =>
    rcases checked_cases h with ⟨ha, h⟩ | ⟨ha, rfl⟩
    · by_cases hs : s.sp = 255
      · simp only [checkPopEntry_end hs, except_error_bind, finish_error, Host.Outcome.next.injEq] at h
        exact .inl ⟨_, _, h.symm, .inr ⟨wellFormed_one rfl ha, .inr (.inl ⟨.inl ⟨a, rfl⟩, hs, rfl, rfl⟩)⟩⟩
      · simp only [checkPopEntry_entry hs, popByte_eq, except_ok_bind, except_pure, finish_ok,
          Host.Outcome.next.injEq] at h
        exact .inr ⟨wellFormed_one rfl ha, hs, ha, h.symm⟩
    · exact .inl ⟨_, _, rfl, errorCause_first rfl ha⟩
  | printRegister a =>
    rcases checked_cases h with ⟨ha, h⟩ | ⟨ha, rfl⟩
    · simp only [except_pure, finish_ok, Host.Outcome.next.injEq] at h
      exact .inr ⟨wellFormed_one rfl ha, by simp [Effect, regAt, ha, ← h, State.advance, State.emit]⟩
    · exact .inl ⟨_, _, rfl, errorCause_first rfl ha⟩
  | call a =>
    rcases checked_cases h with ⟨ha, h⟩ | ⟨ha, rfl⟩
    · by_cases hs : s.sp = 0
      · simp only [checkPushRoom_full hs, except_error_bind, finish_error, Host.Outcome.next.injEq] at h
        exact .inl ⟨_, _, h.symm, .inr ⟨wellFormed_one rfl ha, .inl ⟨.inr ⟨a, rfl⟩, hs, rfl, rfl⟩⟩⟩
      · by_cases hp : s.pc.toNat ≤ 253
        · simp only [checkPushRoom_room hs, returnAddress_inside hp, pushByte_eq, except_ok_bind, except_pure,
            finish_ok, Host.Outcome.next.injEq] at h
          exact .inr ⟨wellFormed_one rfl ha, hs, hp, by simp [regAt, ha, ← h, State.jumpTo]⟩
        · have hp' : 253 < s.pc.toNat := by omega
          simp only [checkPushRoom_room hs, returnAddress_outside hp', except_ok_bind, except_error_bind,
            finish_error, Host.Outcome.next.injEq] at h
          exact .inl ⟨_, _, h.symm,
            .inr ⟨wellFormed_one rfl ha, .inr (.inr ⟨⟨a, rfl⟩, hs, hp', rfl, rfl⟩)⟩⟩
    · exact .inl ⟨_, _, rfl, errorCause_first rfl ha⟩
  | jump a =>
    rcases checked_cases h with ⟨ha, h⟩ | ⟨ha, rfl⟩
    · simp only [except_pure, finish_ok, Host.Outcome.next.injEq] at h
      exact .inr ⟨wellFormed_one rfl ha, by simp [Effect, regAt, ha, ← h, State.jumpTo]⟩
    · exact .inl ⟨_, _, rfl, errorCause_first rfl ha⟩
  | jumpIfEqual a =>
    rcases checked_cases h with ⟨ha, h⟩ | ⟨ha, rfl⟩
    · simp only [except_pure, finish_ok, Host.Outcome.next.injEq] at h
      refine .inr ⟨wellFormed_one rfl ha, ?_⟩
      cases hE : flagE s.fl <;> simp [Effect, regAt, ha, ← h, State.jumpTo, State.advance, hE]
    · exact .inl ⟨_, _, rfl, errorCause_first rfl ha⟩
  | jumpIfNotEqual a =>
    rcases checked_cases h with ⟨ha, h⟩ | ⟨ha, rfl⟩
    · simp only [except_pure, finish_ok, Host.Outcome.next.injEq] at h
      refine .inr ⟨wellFormed_one rfl ha, ?_⟩
      cases hE : flagE s.fl <;> simp [Effect, regAt, ha, ← h, State.jumpTo, State.advance, hE]
    · exact .inl ⟨_, _, rfl, errorCause_first rfl ha⟩
  | loadImmediate a b =>
    rcases checked_cases h with ⟨ha, h⟩ | ⟨ha, rfl⟩
    · simp only [except_pure, finish_ok, Host.Outcome.next.injEq] at h
      exact .inr ⟨wellFormed_one rfl ha, ha, h.symm⟩
    · exact .inl ⟨_, _, rfl, errorCause_first rfl ha⟩
  | multiply a b =>
    rcases checked_cases h with ⟨ha, h⟩ | ⟨ha, rfl⟩
    · rcases checked_cases h with ⟨hb, h⟩ | ⟨hb, rfl⟩
      · simp only [aluApply, except_ok_bind, except_pure, finish_ok, Host.Outcome.next.injEq] at h
        exact .inr ⟨wellFormed_two rfl ha hb, ha, by simp [regAt, ha, hb, ← h, State.setReg, State.advance]⟩
      · exact .inl ⟨_, _, rfl, errorCause_second rfl ha hb⟩
    · exact .inl ⟨_, _, rfl, errorCause_first rfl ha⟩
  | compare a b =>
    rcases checked_cases h with ⟨ha, h⟩ | ⟨ha, rfl⟩
    · rcases checked_cases h with ⟨hb, h⟩ | ⟨hb, rfl⟩
      · simp only [aluCompare, except_pure, finish_ok, Host.Outcome.next.injEq] at h
        exact .inr ⟨wellFormed_two rfl ha hb,
          by simp [Effect, regAt, ha, hb, ← h, State.setFl, State.advance]⟩
      · exact .inl ⟨_, _, rfl, errorCause_second rfl ha hb⟩
    · exact .inl ⟨_, _, rfl, errorCause_first rfl ha⟩

/-- Executing an instruction always answers a next state. -/
theorem exec_next (i : Instr) (s : State) : ∃ t, exec i s = .next t := by
  have : ∀ e : Except Raise State, ∃ t, finish s e = .next t := by
    intro e; cases e <;> simp
  cases i <;> first | exact this _ | exact ⟨_, rfl⟩

end Sys2Proof.Machine
end

