-- ==== Sys2Proof/Laws/PerInstr.lean ====
section
/-! SUPPORT. The family EncodedLength, a fact about each instruction as syntax: its encoding is as long as its
format says (30_encoding.md R61), and its descriptor counts the operand bytes (40_engine_decoder_alu.md R85). -/

namespace Sys2Proof.Laws.EncodedLength

/-- The encoding's length, and the operand count of the descriptor its opcode byte has. -/
def Statement (i : Instr) : Prop :=
  (encode i).length = i.length ∧
    ∃ d, (encode i).head?.bind decodeOpcode = some d ∧ d.id = i.opId ∧ i.length = 1 + d.n

theorem halt : Statement .halt := ⟨rfl, _, rfl, rfl, rfl⟩
theorem ret : Statement .ret := ⟨rfl, _, rfl, rfl, rfl⟩
theorem push (a : RegByte) : Statement (.push a) := ⟨rfl, _, rfl, rfl, rfl⟩
theorem pop (a : RegByte) : Statement (.pop a) := ⟨rfl, _, rfl, rfl, rfl⟩
theorem printRegister (a : RegByte) : Statement (.printRegister a) := ⟨rfl, _, rfl, rfl, rfl⟩
theorem call (a : RegByte) : Statement (.call a) := ⟨rfl, _, rfl, rfl, rfl⟩
theorem jump (a : RegByte) : Statement (.jump a) := ⟨rfl, _, rfl, rfl, rfl⟩
theorem jumpIfEqual (a : RegByte) : Statement (.jumpIfEqual a) := ⟨rfl, _, rfl, rfl, rfl⟩
theorem jumpIfNotEqual (a : RegByte) : Statement (.jumpIfNotEqual a) := ⟨rfl, _, rfl, rfl, rfl⟩
theorem loadImmediate (a : RegByte) (b : Byte) : Statement (.loadImmediate a b) := ⟨rfl, _, rfl, rfl, rfl⟩
theorem multiply (a b : RegByte) : Statement (.multiply a b) := ⟨rfl, _, rfl, rfl, rfl⟩
theorem compare (a b : RegByte) : Statement (.compare a b) := ⟨rfl, _, rfl, rfl, rfl⟩

end Sys2Proof.Laws.EncodedLength
end

