-- ==== Sys2Proof/Tests/Slice0.lean ====
section
/-! SUPPORT. Tests: well-formedness, decoding of words written out from the spec's table, one step per vector of
95_test_vectors.md (V<n> there), and for every statement with hypotheses a state and operands that meet them. -/

namespace Sys2Proof.Tests

open Sys2Proof.Machine

/-! ## Well-formedness: an index of 8 is refused in every register operand, 7 and any literal are not (R63, R67) -/

theorem test_illFormed_push : Instr.wellFormed (.push 8) = false ∧ Instr.wellFormed (.push 7) = true := by decide
theorem test_illFormed_pop : Instr.wellFormed (.pop 8) = false ∧ Instr.wellFormed (.pop 7) = true := by decide
theorem test_illFormed_printRegister : Instr.wellFormed (.printRegister 8) = false ∧ Instr.wellFormed (.printRegister 7) = true := by decide
theorem test_illFormed_call : Instr.wellFormed (.call 8) = false ∧ Instr.wellFormed (.call 7) = true := by decide
theorem test_illFormed_jump : Instr.wellFormed (.jump 8) = false ∧ Instr.wellFormed (.jump 7) = true := by decide
theorem test_illFormed_jumpIfEqual : Instr.wellFormed (.jumpIfEqual 8) = false ∧ Instr.wellFormed (.jumpIfEqual 7) = true := by decide
theorem test_illFormed_jumpIfNotEqual : Instr.wellFormed (.jumpIfNotEqual 8) = false ∧ Instr.wellFormed (.jumpIfNotEqual 7) = true := by decide
theorem test_illFormed_loadImmediate :
    Instr.wellFormed (.loadImmediate 8 0) = false ∧ Instr.wellFormed (.loadImmediate 7 255) = true := by decide
theorem test_illFormed_multiply : Instr.wellFormed (.multiply 8 0) = false ∧ Instr.wellFormed (.multiply 0 255) = false ∧
    Instr.wellFormed (.multiply 7 7) = true := by decide
theorem test_illFormed_compare : Instr.wellFormed (.compare 8 0) = false ∧ Instr.wellFormed (.compare 0 255) = false ∧
    Instr.wellFormed (.compare 7 7) = true := by decide
theorem test_wellFormed_noOperands : Instr.wellFormed .halt = true ∧ Instr.wellFormed .ret = true := by decide

/-! ## Decoding: bytes from the binary column of the table (30_encoding.md R64) -/

theorem test_decode_halt : decode [0b00000001] = .ok (.halt, []) := rfl
theorem test_decode_loadImmediate : decode [0b10000010, 0b00000000, 0b00001000] = .ok (.loadImmediate 0 8, []) := rfl
theorem test_decode_printRegister : decode [0b01000111, 0b00000110] = .ok (.printRegister 6, []) := rfl
theorem test_decode_multiply : decode [0b10100010, 0b00000000, 0b00000001] = .ok (.multiply 0 1, []) := rfl
theorem test_decode_push : decode [0b01000101, 0b00000111] = .ok (.push 7, []) := rfl
theorem test_decode_pop : decode [0b01000110, 0b10000000] = .ok (.pop 128, []) := rfl
theorem test_decode_call : decode [0b01010000, 0b00000001] = .ok (.call 1, []) := rfl
theorem test_decode_ret : decode [0b00010001] = .ok (.ret, []) := rfl
theorem test_decode_compare : decode [0b10100111, 0b00000011, 0b00000010] = .ok (.compare 3 2, []) := rfl
theorem test_decode_jump : decode [0b01010100, 0b00000100] = .ok (.jump 4, []) := rfl
theorem test_decode_jumpIfEqual : decode [0b01010101, 0b00000011] = .ok (.jumpIfEqual 3, []) := rfl
theorem test_decode_jumpIfNotEqual : decode [0b01010110, 0b00000101] = .ok (.jumpIfNotEqual 5, []) := rfl
/-- 0x00 and 0xA0 are no opcodes (30_encoding.md R66, 91_not_in_source.md N21). -/
theorem test_decode_illegal : decode [0x00] = .error (.illegalOpcode 0x00) ∧
    decode [0xA0, 0x00, 0x01] = .error (.illegalOpcode 0xA0) := ⟨rfl, rfl⟩
theorem test_decode_truncated : decode [0x82, 0x01] = .error .truncated ∧ decode [] = .error .truncated := ⟨rfl, rfl⟩
theorem test_decode_leaves_rest : decode [0x11, 0x45, 0x00] = .ok (.ret, [0x45, 0x00]) := rfl

/-! ## One step, from the spec's vectors -/

/-- The reset state with bytes stored at an address and the program counter there. -/
def placed (p : Nat) (bytes : List Byte) : State :=
  { State.reset with pc := BitVec.ofNat 9 p, mem := storeBytes [] p bytes }

/-- With a register holding a value. -/
def withReg (s : State) (i : Fin 8) (v : Byte) : State := { s with regs := s.regs.set i v }

/-- With a stack pointer and the byte at it. -/
def withStack (s : State) (sp v : Byte) : State := { s with sp := sp, mem := s.mem.write sp.toNat v }

/-- With the flags. -/
def withFl (s : State) (v : Byte) : State := { s with fl := v }

/-- The next state of an outcome. -/
def nextOf : Outcome → Option State
  | .next t => some t
  | .fault _ | .refused _ => none

/-- A view of the state after one step. -/
def after {α : Type} (s : State) (f : State → α) : Option α := (nextOf (step s)).map f

/-- What the caller sees of the run's end: `status`, `err`, `err_info` and `pc`. -/
def verdict (s : State) : Status × Option ErrorKind × Nat × Nat := (s.status, s.err, s.errInfo, s.pc.toNat)

theorem test_V1_halt : after (placed 0 [0x01]) verdict =
    some (.halted, none, 0, 1) := by decide
theorem test_V2_halt_at_255 : after (placed 255 [0x01]) verdict =
    some (.halted, none, 0, 256) := by decide
theorem test_V4_print_x7 : after (placed 0 [0x47, 0x07]) (fun t => (t.out, t.pc.toNat)) =
    some ([244], 2) := by decide
theorem test_V5_print_bad_index : after (placed 0 [0x47, 0x08]) (fun t => (verdict t, t.out)) =
    some ((.halted, some .outOfBounds, 8, 0), []) := by decide
theorem test_V12_load_x7_keeps_sp : after (placed 0 [0x82, 0x07, 0x10]) (fun t => (t.regs[7], t.sp, t.pc.toNat)) =
    some (16, 0xF4, 3) := by decide
theorem test_V15_load_past_memory : after (placed 254 [0x82, 0x01]) (fun t => (verdict t, t.regs[1])) =
    some ((.halted, some .outOfBounds, 256, 254), 0) := by decide
theorem test_V21_multiply_wraps : after (withReg (withReg (placed 0 [0xA2, 0x00, 0x01]) 0 200) 1 3) (fun t => (t.regs[0], t.regs[1], t.fl)) =
    some (88, 3, 0) := by decide
theorem test_V28_multiply_first_index : after (withReg (placed 0 [0xA2, 0x08, 0x09]) 0 2) (fun t => (verdict t, t.regs[0])) =
    some ((.halted, some .outOfBounds, 8, 0), 2) := by decide
theorem test_V32_push_to_zero : after (withReg { placed 10 [0x45, 0x00] with sp := 1 } 0 5) (fun t => (t.sp, t.mem.read 0, t.pc.toNat)) =
    some (0, 5, 12) := by decide
theorem test_V34_push_index_before_stack : after ({ placed 0 [0x45, 0x08] with sp := 0 }) verdict =
    some (.halted, some .outOfBounds, 8, 0) := by decide
theorem test_V37_pop_at_254 : after (withStack (placed 0 [0x46, 0x01]) 254 7) (fun t => (t.regs[1], t.sp)) =
    some (7, 255) := by decide
theorem test_V38_pop_at_255 : after (withReg (withStack (placed 0 [0x46, 0x01]) 255 7) 1 9) (fun t => (verdict t, t.regs[1], t.sp)) =
    some ((.halted, some .stackUnderflow, 255, 0), 9, 255) := by decide
theorem test_V41_call_at_253 : after (withReg (placed 253 [0x50, 0x01]) 1 11) (fun t => (t.sp, t.mem.read 0xF3, t.pc.toNat)) =
    some (0xF3, 255, 11) := by decide
theorem test_V44_call_stack_before_address : after (withReg { placed 254 [0x50, 0x01] with sp := 0 } 1 11) verdict =
    some (.halted, some .stackOverflow, 0, 254) := by decide
theorem test_V46_return : after (withStack (placed 14 [0x11]) 0xF3 8) (fun t => (t.pc.toNat, t.sp)) =
    some (8, 0xF4) := by decide
theorem test_V47_return_at_255 : after (withStack (placed 14 [0x11]) 255 8) (fun t => (verdict t, t.sp)) =
    some ((.halted, some .stackUnderflow, 255, 14), 255) := by decide
theorem test_V52_compare_is_unsigned : after (withReg (placed 0 [0xA7, 0x00, 0x01]) 1 255) (fun t => (t.fl, t.pc.toNat)) =
    some (0x04, 3) := by decide
theorem test_V53_compare_with_itself : after (withReg (withFl (placed 0 [0xA7, 0x03, 0x03]) 0x04) 3 9) (fun t => t.fl) =
    some 0x01 := by decide
theorem test_V55_jump_by_value : after (withReg (placed 5 [0x54, 0x00]) 0 3) (fun t => t.pc.toNat) =
    some 3 := by decide
theorem test_V57_jump_bad_index : after (placed 5 [0x54, 0x09]) verdict =
    some (.halted, some .outOfBounds, 9, 5) := by decide
theorem test_V59_equal_not_taken : after (withReg (withFl (placed 18 [0x55, 0x03]) 0x02) 3 30) (fun t => t.pc.toNat) =
    some 20 := by decide
theorem test_V61_equal_bad_index_not_taken : after (withFl (placed 18 [0x55, 0x09]) 0x02) verdict =
    some (.halted, some .outOfBounds, 9, 18) := by decide
theorem test_V64_notEqual_not_taken : after (withReg (withFl (placed 18 [0x56, 0x03]) 0x01) 3 12) (fun t => t.pc.toNat) =
    some 20 := by decide
theorem test_V65_notEqual_before_compare : after (withReg (placed 18 [0x56, 0x03]) 3 12) (fun t => t.pc.toNat) =
    some 12 := by decide
theorem test_V71_no_add : after (placed 0 [0xA0, 0x00, 0x01]) verdict =
    some (.halted, some .decodeError, 0xA0, 0) := by decide
theorem test_V73_past_the_end : after (placed 256 []) verdict =
    some (.halted, some .outOfBounds, 256, 256) := by decide
/-- V74: in HALTED no step exists. -/
theorem test_V74_halted : nextOf (step { placed 0 [0x01] with status := .halted }) = none := by decide
/-- Resetting and placing an opcode-table word: the next step runs it. -/
theorem test_withFetchWord : after (State.reset.withFetchWord 24 0x080082) (fun t => (t.regs[0], t.pc.toNat)) =
    some (8, 3) := by decide
/-- The codes of 60_exceptions.md R153. -/
theorem test_errCodes : [none, some .outOfBounds, some .decodeError, some .unsupportedOperation, some .stackUnderflow,
    some .stackOverflow].map errCode = [0, 1, 2, 3, 4, 5] := by decide

/-! ## Witnesses: for each statement with hypotheses, a state and operands that meet them, at the boundary of each
clause's range -/

theorem witness_DecodedBytesAreTheEncoding :
    decode [0x82, 0x07, 0xFF, 0x99] = .ok (.loadImmediate 7 0xFF, [0x99]) := rfl

theorem witness_IllegalOpcodeRaisesDecodeError :
    illegalOpcode 0x00 = true ∧ illegalOpcode 0xFF = true ∧ illegalOpcode 0x01 = false ∧ illegalOpcode 0xA7 = false ∧
    (placed 255 [0xFF]).status = .running ∧ (placed 255 [0xFF]).pc.toNat ≤ 255 ∧
    illegalOpcode ((placed 255 [0xFF]).mem.read (placed 255 [0xFF]).pc.toNat).toNat = true := by decide

theorem witness_StepRunsDecodedInstruction : (placed 253 [0x82, 0x01, 0xFF]).status = .running ∧
    decode (bytesFromPc (placed 253 [0x82, 0x01, 0xFF])) = .ok (.loadImmediate 1 0xFF, []) := ⟨rfl, rfl⟩

theorem witness_StepRaisesWhereNothingDecodes_illegal : (placed 255 [0x03]).status = .running ∧
    decode (bytesFromPc (placed 255 [0x03])) = .error (.illegalOpcode 0x03) := ⟨rfl, rfl⟩

theorem witness_StepRaisesWhereNothingDecodes_truncated :
    (placed 256 []).pc.toNat ≤ 256 ∧ decode (bytesFromPc (placed 256 [])) = .error .truncated ∧
    decode (bytesFromPc (placed 255 [0x47])) = .error .truncated ∧
    decode (bytesFromPc (placed 254 [0x82, 0x01])) = .error .truncated := ⟨by decide, rfl, rfl, rfl⟩

theorem witness_StepAfterWithFetchWordRunsTheWord : (placed 253 []).status = .running ∧
    (placed 253 []).mem.wf = true ∧ (placed 253 []).pc.toNat ≤ 253 ∧
    decodeTableWord 24 0x0107A2 = some (.multiply 7 1) := by decide

/-- One state for each of the eight places of R158, the last cell or the last good value beside each, and one state
that raises nothing. -/
theorem witness_FirstErrorInPriorityOrderIsRaised :
    (placed 256 []).status = .running ∧
    firstError (placed 256 []) = some (.outOfBounds, 256) ∧
    firstError (placed 255 [0x00]) = some (.decodeError, 0) ∧
    firstError (placed 255 [0x47]) = some (.outOfBounds, 256) ∧
    firstError (placed 254 [0xA7, 0x08]) = some (.outOfBounds, 256) ∧
    firstError { placed 0 [0x45, 0x08] with sp := 0 } = some (.outOfBounds, 8) ∧
    firstError (placed 0 [0xA7, 0x07, 0xFF]) = some (.outOfBounds, 255) ∧
    firstError { placed 254 [0x50, 0x07] with sp := 0 } = some (.stackOverflow, 0) ∧
    firstError { placed 255 [0x11] with sp := 255 } = some (.stackUnderflow, 255) ∧
    firstError (placed 254 [0x50, 0x07]) = some (.outOfBounds, 256) ∧
    firstError (placed 253 [0x50, 0x07]) = none := by decide

theorem witness_ErrorChangesOnlyItsRecord : (placed 0 []).err = none ∧
    ∃ t, step (placed 0 []) = .next t ∧ t.err = some .decodeError := ⟨rfl, _, rfl, rfl⟩

theorem witness_RunningEngineAlwaysSteps : (placed 256 []).status = .running := rfl

theorem witness_HaltedEngineHasNoStep : ({ placed 1 [] with status := .halted } : State).status = .halted := rfl

theorem witness_HaltedOnlyByHaltOrError_halt : (placed 0 [0x01]).err = none ∧
    ∃ t, step (placed 0 [0x01]) = .next t ∧ t.status = .halted ∧ t.err = none := ⟨rfl, _, rfl, rfl, rfl⟩

theorem witness_HaltedOnlyByHaltOrError_error : (placed 256 []).err = none ∧
    ∃ t, step (placed 256 []) = .next t ∧ t.status = .halted ∧ t.err ≠ none := ⟨rfl, _, rfl, rfl, by decide⟩

theorem witness_HaltedStateIsFinal : ({ placed 1 [] with status := .halted } : State).status = .halted ∧
    Reaches { placed 1 [] with status := .halted } { placed 1 [] with status := .halted } := ⟨rfl, .refl _⟩

theorem witness_RunEndsByHaltOrByError_halt : (placed 0 [0x01]).status = .running ∧ (placed 0 [0x01]).err = none ∧
    ∃ t, Reaches (placed 0 [0x01]) t ∧ t.status = .halted ∧ t.err = none :=
  ⟨rfl, rfl, _, .tail (.refl _) rfl, rfl, rfl⟩

theorem witness_RunEndsByHaltOrByError_error : (placed 0 [0x00]).status = .running ∧ (placed 0 [0x00]).err = none ∧
    ∃ t, Reaches (placed 0 [0x00]) t ∧ t.status = .halted ∧ t.err = some .decodeError :=
  ⟨rfl, rfl, _, .tail (.refl _) rfl, rfl, rfl⟩

theorem witness_LoadLeavesTheProgramFromZero :
    (List.replicate 256 (0x11 : Byte)).length ≤ 256 ∧ ([] : List Byte).length ≤ 256 :=
  ⟨List.length_replicate.le, by decide⟩

/-- A state that meets the invariant at its bounds, and steps: HALT at the last cell. -/
theorem witness_StepKeepsTheInvariant : (withFl (placed 255 [0x01]) 0x04).Inv ∧
    ∃ t, step (withFl (placed 255 [0x01]) 0x04) = .next t :=
  ⟨⟨by decide, by decide, by decide, fun _ => rfl, rfl⟩, _, rfl⟩

theorem witness_UnsupportedOperationIsNeverRaised : (placed 0 [0xA2, 0, 1]).err ≠ some .unsupportedOperation ∧
    ∃ t, step (placed 0 [0xA2, 0, 1]) = .next t := ⟨by decide, _, rfl⟩

theorem witness_MemoryAccessChecksTheBound :
    Memory.wf [(0, 1), (255, 7)] = true ∧ 0 ≤ 255 ∧ 255 ≤ 255 ∧ 255 < 256 := by decide

theorem witness_CompareSetsExactlyOneFlag : (7 : Byte) = 7 ∧ (254 : Byte).toNat < (255 : Byte).toNat ∧
    (0 : Byte).toNat < (255 : Byte).toNat := by decide

/-- The boundary of the register-index check, for every instruction that has one. -/
theorem witness_registerIndex : (7 : Byte).toNat < 8 ∧ 7 < (8 : Byte).toNat ∧ 7 < (255 : Byte).toNat := by decide

/-- States in which an opcode stands and its bytes do not all lie in Memory: `RaisesPastMemory op n`'s hypotheses. -/
def pastMemory (p : Nat) (op : Byte) (n : Nat) : Bool :=
  decide ((placed p [op]).status = .running) && decide ((placed p [op]).pc.toNat ≤ 255) &&
    decide ((placed p [op]).mem.read (placed p [op]).pc.toNat = op) && decide (256 < (placed p [op]).pc.toNat + n)

theorem witness_pastMemory_two : ([0x47, 0x45, 0x46, 0x50, 0x54, 0x55, 0x56] : List Byte).all
    (fun op => pastMemory 255 op 2) = true := by decide

theorem witness_pastMemory_three : ([0x82, 0xA2, 0xA7] : List Byte).all
    (fun op => pastMemory 254 op 3 && pastMemory 255 op 3) = true := by decide

theorem witness_PrintRegisterEmitsTheValue :
    (7 : Byte).toNat < 8 ∧ 7 < (8 : Byte).toNat ∧ pastMemory 255 0x47 2 = true := by decide

theorem witness_LoadImmediateWritesTheLiteral :
    (7 : Byte).toNat < 8 ∧ 7 < (8 : Byte).toNat ∧ pastMemory 254 0x82 3 = true := by decide

theorem witness_MultiplyWritesTheLowProduct :
    (7 : Byte).toNat < 8 ∧ (0 : Byte).toNat < 8 ∧ 7 < (8 : Byte).toNat ∧ pastMemory 254 0xA2 3 = true := by decide

theorem witness_PushStoresTheRegister : (7 : Byte).toNat < 8 ∧ 7 < (8 : Byte).toNat ∧ pastMemory 255 0x45 2 = true ∧
    ({ placed 0 [] with sp := 0 } : State).sp = 0 ∧ ({ placed 0 [] with sp := 1 } : State).sp ≠ 0 ∧
    ({ placed 0 [] with sp := 1 } : State).mem.wf = true := by decide

theorem witness_PopLoadsTheRegister : (7 : Byte).toNat < 8 ∧ 7 < (8 : Byte).toNat ∧ pastMemory 255 0x46 2 = true ∧
    (withStack (placed 0 []) 255 7).sp = 255 ∧ (withStack (placed 0 []) 254 7).sp ≠ 255 := by decide

theorem witness_CallPushesTheReturnAddress : (7 : Byte).toNat < 8 ∧ 7 < (8 : Byte).toNat ∧
    pastMemory 255 0x50 2 = true ∧ ({ placed 254 [] with sp := 0 } : State).sp = 0 ∧
    ({ placed 254 [] with sp := 1 } : State).sp ≠ 0 ∧ ({ placed 254 [] with sp := 1 } : State).pc.toNat = 254 ∧
    ({ placed 253 [] with sp := 1 } : State).pc.toNat ≤ 253 ∧
    ({ placed 253 [] with sp := 1 } : State).mem.wf = true := by decide

theorem witness_ReturnPopsTheProgramCounter :
    (withStack (placed 0 []) 255 7).sp = 255 ∧ (withStack (placed 0 []) 254 7).sp ≠ 255 := by decide

theorem witness_CompareRecordsTheOutcome :
    (7 : Byte).toNat < 8 ∧ (0 : Byte).toNat < 8 ∧ 7 < (8 : Byte).toNat ∧ pastMemory 254 0xA7 3 = true := by decide

theorem witness_JumpGoesToTheRegistersValue :
    (7 : Byte).toNat < 8 ∧ 7 < (8 : Byte).toNat ∧ pastMemory 255 0x54 2 = true := by decide

theorem witness_JumpIfEqualGoesByE : (7 : Byte).toNat < 8 ∧ 7 < (8 : Byte).toNat ∧ pastMemory 255 0x55 2 = true ∧
    (withFl (placed 0 []) 0x01).fl.getLsbD 0 = true ∧ (withFl (placed 0 []) 0x02).fl.getLsbD 0 = false := by decide

theorem witness_JumpIfNotEqualGoesByE : (7 : Byte).toNat < 8 ∧ 7 < (8 : Byte).toNat ∧ pastMemory 255 0x56 2 = true ∧
    (placed 0 []).fl.getLsbD 0 = false ∧ (withFl (placed 0 []) 0x01).fl.getLsbD 0 = true := by decide

theorem witness_FirstIllegalIndexIsRaised :
    (Instr.multiply 7 8).regOperands.find? (fun a => decide (7 < a.toNat)) = some 8 ∧
    (Instr.multiply 9 8).regOperands.find? (fun a => decide (7 < a.toNat)) = some 9 ∧
    (Instr.jumpIfEqual 255).regOperands.find? (fun a => decide (7 < a.toNat)) = some 255 ∧
    (Instr.loadImmediate 7 8).regOperands.find? (fun a => decide (7 < a.toNat)) = none := by decide

theorem witness_OnlyCompareWritesFlags : (∃ t, exec (.multiply 0 1) (withFl (placed 0 []) 0x02) = .next t) ∧
    ∀ a b, Instr.multiply 0 1 ≠ .compare a b := ⟨⟨_, rfl⟩, by simp⟩

theorem witness_OnlyStackInstructionsMoveSp :
    (∃ t, exec (.push 0) { placed 0 [] with sp := 1 } = .next t ∧ t.sp = 0) ∧
    (∃ t, exec .ret { placed 0 [] with sp := 254 } = .next t ∧ t.sp = 255) ∧
    ∃ t, exec (.loadImmediate 7 0) (placed 0 []) = .next t ∧ t.sp = 0xF4 :=
  ⟨⟨_, rfl, rfl⟩, ⟨_, rfl, rfl⟩, _, rfl, rfl⟩

theorem witness_OnlyPushAndCallWriteOneCell :
    (withReg (placed 0 [0x45]) 0 5).mem.wf = true ∧
    (∃ t, exec (.push 0) (withReg (placed 0 [0x45]) 0 5) = .next t) ∧ 0 ≠ pushAddr (withReg (placed 0 [0x45]) 0 5) ∧
    (∃ t, exec (.pop 0) (placed 0 [0x45]) = .next t) ∧ (∀ a, Instr.pop 0 ≠ .push a) ∧ ∀ a, Instr.pop 0 ≠ .call a :=
  ⟨by decide, ⟨_, rfl⟩, by decide, ⟨_, rfl⟩, by simp, by simp⟩

theorem witness_OnlyTheDestinationRegisterChanges : (∃ t, exec (.pop 0) (placed 0 []) = .next t) ∧
    ∀ a, destination (.pop 0) = some a → a.toNat ≠ 7 := ⟨⟨_, rfl⟩, by simp [destination]⟩

theorem witness_OnlyPrintRegisterEmits : (∃ t, exec (.printRegister 7) (placed 0 []) = .next t ∧ t.out = [0xF4]) ∧
    ∃ t, exec (.printRegister 8) (placed 0 []) = .next t ∧ t.out = [] := ⟨⟨_, rfl, rfl⟩, _, rfl, rfl⟩

theorem witness_ProgramCounterFollowsTheTable_next : (placed 253 []).err = none ∧
    (placed 253 []).pc.toNat + (Instr.loadImmediate 0 0).length ≤ 256 ∧
    ∃ t, exec (.loadImmediate 0 0) (placed 253 []) = .next t ∧ t.err = none := ⟨rfl, by decide, _, rfl, rfl⟩

theorem witness_ProgramCounterFollowsTheTable_error : (placed 254 []).err = none ∧
    (placed 254 []).pc.toNat + (Instr.call 0).length ≤ 256 ∧
    ∃ t, exec (.call 0) (placed 254 []) = .next t ∧ t.err ≠ none := ⟨rfl, by decide, _, rfl, by decide⟩

theorem witness_EngineNeverReadsOutput : ∃ t, step { placed 0 [0x47, 0x07] with out := [1] } = .next t := ⟨_, rfl⟩

theorem witness_GreaterAndLessAreNeverRead : flagE 0x04 = flagE (withFl (placed 0 [0x56, 0x00]) 0x02).fl ∧
    ∃ t, step (withFl (placed 0 [0x56, 0x00]) 0x02) = .next t := ⟨by decide, _, rfl⟩

theorem witness_RegisterSevenIsOnlyReachedByName : (7 : Byte) ∉ (Instr.push 6).regOperands ∧
    (7 : Byte) ∉ Instr.ret.regOperands ∧ ∃ t, exec (.push 6) (placed 0 []) = .next t :=
  ⟨by decide, by decide, _, rfl⟩

theorem witness_StackErrorsAreExactlyTheRangeErrors :
    (∃ t, step { placed 254 [0x50, 0x07] with sp := 0 } = .next t ∧ t.err = some .stackOverflow) ∧
    (∃ t, step { placed 254 [0x46, 0x07] with sp := 255 } = .next t ∧ t.err = some .stackUnderflow) ∧
    (∃ t, step { placed 255 [0x11] with sp := 255 } = .next t ∧ t.err = some .stackUnderflow) ∧
    ∃ t, step { placed 0 [0x45, 0x08] with sp := 0 } = .next t ∧ t.err = some .outOfBounds :=
  ⟨⟨_, rfl, rfl⟩, ⟨_, rfl, rfl⟩, ⟨_, rfl, rfl⟩, _, rfl, rfl⟩

theorem witness_LoadedLiteralIsPrinted : (7 : Byte).toNat < 8 := by decide

theorem witness_MultiplyCommutes : (0 : Byte).toNat < 8 ∧ (7 : Byte).toNat < 8 := by decide

theorem witness_BranchesFollowTheComparison : (0 : Byte).toNat < 8 ∧ (7 : Byte).toNat < 8 ∧ (3 : Byte).toNat < 8 ∧
    (placed 0 []).regs[0] = (placed 0 []).regs[1] ∧ (placed 0 []).regs[0] ≠ (placed 0 []).regs[7] := by decide

theorem witness_PushesAndPopsRoundTrip : (∀ r ∈ ([0, 7, 7] : List Byte), r.toNat < 8) ∧
    ({ placed 0 [] with sp := 3 } : State).mem.wf = true ∧
    ([0, 7, 7] : List Byte).length ≤ ({ placed 0 [] with sp := 3 } : State).sp.toNat := by decide

theorem witness_ReturnResumesAfterTheCall : (7 : Byte).toNat < 8 ∧ (placed 253 [0x50, 7]).sp ≠ 0 ∧
    (placed 253 [0x50, 7]).pc.toNat ≤ 253 ∧ (placed 253 [0x50, 7]).mem.wf = true ∧
    ∃ t, exec (.call 7) (placed 253 [0x50, 7]) = .next t ∧ ∃ u : State, u.sp = t.sp ∧
      u.mem.read t.sp.toNat = t.mem.read t.sp.toNat :=
  ⟨by decide, by decide, by decide, by decide, _, rfl, _, rfl, rfl⟩

theorem witness_JumpToItselfChangesNothing : (7 : Byte).toNat < 8 ∧
    (placed 0xF4 [0x54, 7]).regs[7].toNat = (placed 0xF4 [0x54, 7]).pc.toNat := by decide

/-- PUSH of register 0 = 3 with `sp` = 6 writes the byte 3 at address 5, where a step then begins (program P7). -/
theorem witness_PushedByteIsWhatIsFetched : (0 : Byte).toNat < 8 ∧
    (withReg { placed 3 [0x45, 0] with sp := 6 } 0 3).sp ≠ 0 ∧
    (withReg { placed 3 [0x45, 0] with sp := 6 } 0 3).mem.wf = true ∧
    (withReg { placed 3 [0x45, 0] with sp := 6 } 0 3).status = .running ∧
    illegalOpcode (withReg { placed 3 [0x45, 0] with sp := 6 } 0 3).regs[0].toNat = true ∧
    ∃ t, exec (.push 0) (withReg { placed 3 [0x45, 0] with sp := 6 } 0 3) = .next t ∧ t.status = .running ∧
      t.pc.toNat = pushAddr (withReg { placed 3 [0x45, 0] with sp := 6 } 0 3) :=
  ⟨by decide, by decide, by decide, by decide, by decide, _, rfl, rfl, by decide⟩

end Sys2Proof.Tests
end

/-! SUPPORT and the statements of 10_state.md. What an instruction's effect does to each element of the state, and
that `ErrorCause` and `Effect` together say exactly what `exec` answers; the frames and the invariant follow. -/

namespace Sys2Proof.Machine

/-! ## The effect of an instruction, element by element -/

section Effect

variable {i : Instr} {s t : State}

@[simp] theorem zext9_toNat (v : Byte) : (zext9 v).toNat = v.toNat :=
  BitVec.toNat_setWidth_of_le (by decide)

/-- An instruction that raises nothing leaves the error record as it was. -/
theorem Effect.err_errInfo_eq (h : Effect i s t) : t.err = s.err ∧ t.errInfo = s.errInfo := by
  cases i <;> grind [Effect]

/-- Without an error only HALT changes `status` (10_state.md R27). -/
theorem Effect.status_eq (h : Effect i s t) : t.status = if i = .halt then .halted else s.status := by
  cases i with
  | halt => exact congrArg State.status h
  | _ => grind [Effect]

theorem Effect.fl_eq (h : Effect i s t) :
    t.fl = s.fl ∨ ∃ a b, i = .compare a b ∧ t.fl = compareFlags (regAt s a) (regAt s b) := by
  cases i with
  | compare a b => exact .inr ⟨a, b, rfl, congrArg State.fl h⟩
  | _ => grind [Effect]

/-- `sp` stays, or moves by one without wrapping (44_stack.md R120). -/
theorem Effect.sp_cases (h : Effect i s t) :
    t.sp = s.sp ∨
    (((∃ a, i = .push a) ∨ ∃ a, i = .call a) ∧ t.sp.toNat + 1 = s.sp.toNat) ∨
    (((∃ a, i = .pop a) ∨ i = .ret) ∧ t.sp.toNat = s.sp.toNat + 1) := by
  cases i with
  | push a =>
    obtain ⟨hs, rfl⟩ := h
    exact .inr (.inl ⟨.inl ⟨a, rfl⟩, by bv_omega⟩)
  | call a =>
    obtain ⟨hs, -, rfl⟩ := h
    exact .inr (.inl ⟨.inr ⟨a, rfl⟩, by bv_omega⟩)
  | pop a =>
    obtain ⟨hs, -, rfl⟩ := h
    exact .inr (.inr ⟨.inl ⟨a, rfl⟩, by bv_omega⟩)
  | ret =>
    obtain ⟨hs, rfl⟩ := h
    exact .inr (.inr ⟨.inr rfl, by bv_omega⟩)
  | _ => grind [Effect]

/-- Memory stays, or PUSH or CALL writes the one cell at `pushAddr`. -/
theorem Effect.mem_cases (h : Effect i s t) :
    t.mem = s.mem ∨ ((∃ a, i = .push a) ∨ ∃ a, i = .call a) ∧ ∃ v, t.mem = s.mem.write (pushAddr s) v := by
  cases i with
  | push a => exact .inr ⟨.inl ⟨a, rfl⟩, _, congrArg State.mem h.2⟩
  | call a => exact .inr ⟨.inr ⟨a, rfl⟩, _, congrArg State.mem h.2.2⟩
  | _ => grind [Effect]

/-- A register that is not the destination stays (the table of 10_state.md R23). -/
theorem Effect.getElem_regs_eq (h : Effect i s t) {j : Nat} (hj : j < 8)
    (hd : ∀ a, destination i = some a → a.toNat ≠ j) : t.regs[j] = s.regs[j] := by
  cases i with
  | pop a =>
    obtain ⟨-, ha, rfl⟩ := h
    exact Vector.getElem_set_ne ha hj (hd a rfl)
  | loadImmediate a b =>
    obtain ⟨ha, rfl⟩ := h
    exact Vector.getElem_set_ne ha hj (hd a rfl)
  | multiply a b =>
    obtain ⟨ha, rfl⟩ := h
    exact Vector.getElem_set_ne ha hj (hd a rfl)
  | _ => grind [Effect]

theorem Effect.out_cases (h : Effect i s t) :
    t.out = s.out ∨ ∃ a, i = .printRegister a ∧ t.out = s.out ++ [regAt s a] := by
  cases i with
  | printRegister a => exact .inr ⟨a, rfl, congrArg State.out h⟩
  | _ => grind [Effect]

/-- `pc` follows the table of 10_state.md R24: the advance does not wrap where the instruction's bytes lie in
Memory, and a target is a byte widened. -/
theorem Effect.pc_toNat (h : Effect i s t) (hl : s.pc.toNat + i.length ≤ 256) : t.pc.toNat = pcAfter i s := by
  have advance_toNat (n : Nat) (hn : s.pc.toNat + n ≤ 256) : (s.pc + BitVec.ofNat 9 n).toNat = s.pc.toNat + n := by
    rw [BitVec.toNat_add, BitVec.toNat_ofNat]
    omega
  cases i <;> grind [Effect, pcAfter, Instr.length, zext9_toNat]

theorem pcAfter_le (hl : s.pc.toNat + i.length ≤ 256) : pcAfter i s ≤ 256 := by
  have byte_le (v : Byte) : v.toNat ≤ 256 := by omega
  cases i <;> grind [pcAfter, Instr.length]

end Effect

/-! ## `exec` answers exactly what `ErrorCause` and `Effect` say -/

section ExecIff

variable {i : Instr} {s t : State} {k : ErrorKind} {n : Nat}

/-- In a well-formed instruction no register operand is illegal. -/
theorem find_illegal_of_wellFormed (hw : i.wellFormed = true) :
    i.regOperands.find? (fun a => decide (7 < a.toNat)) = none := by
  simp only [Instr.wellFormed, List.all_eq_true, RegByte.legal, Config.numRegs, decide_eq_true_eq] at hw
  simp only [List.find?_eq_none, decide_eq_true_eq]
  intro a ha
  have := hw a ha
  omega

/-- An instruction has at most one error (60_exceptions.md R158). -/
theorem ErrorCause.unique {k' : ErrorKind} {n' : Nat} (h : ErrorCause i s k n) (h' : ErrorCause i s k' n') :
    k = k' ∧ n = n' := by
  rcases h with ⟨r, hr, rfl, rfl⟩ | ⟨hw, h⟩
  · rcases h' with ⟨r', hr', rfl, rfl⟩ | ⟨hw, -⟩
    · simp [Option.some.inj (hr.symm.trans hr')]
    · simp [find_illegal_of_wellFormed hw] at hr
  · rcases h' with ⟨r', hr', rfl, rfl⟩ | ⟨-, h'⟩
    · simp [find_illegal_of_wellFormed hw] at hr'
    · grind

/-- An instruction that has an error has no effect. -/
theorem ErrorCause.not_effect (h : ErrorCause i s k n) (hw : i.wellFormed = true) : ¬ Effect i s t := by
  rcases h with ⟨r, hr, -⟩ | ⟨-, ⟨⟨a, rfl⟩ | ⟨a, rfl⟩, hs, -⟩ | ⟨⟨a, rfl⟩ | rfl, hs, -⟩ | ⟨⟨a, rfl⟩, -, hp, -⟩⟩
  · simp [find_illegal_of_wellFormed hw] at hr
  all_goals
    simp only [Effect]
    grind

theorem Effect.unique {t' : State} (h : Effect i s t) (h' : Effect i s t') : t = t' := by
  cases i <;> grind [Effect]

theorem exec_of_errorCause (h : ErrorCause i s k n) : exec i s = .next (errorState s k n) := by
  obtain ⟨t, ht⟩ := exec_next i s
  rcases exec_cases ht with ⟨k', n', rfl, h'⟩ | ⟨hw, he⟩
  · obtain ⟨rfl, rfl⟩ := h.unique h'
    exact ht
  · exact absurd he (h.not_effect hw)

theorem exec_of_effect (hw : i.wellFormed = true) (h : Effect i s t) : exec i s = .next t := by
  obtain ⟨t', ht⟩ := exec_next i s
  rcases exec_cases ht with ⟨k, n, rfl, h'⟩ | ⟨-, he⟩
  · exact absurd h (h'.not_effect hw)
  · rwa [h.unique he]

/-- `exec_cases` says all there is: an instruction answers the state of its error, or that of its effect. -/
theorem exec_eq_next_iff : exec i s = .next t ↔
    (∃ k n, t = errorState s k n ∧ ErrorCause i s k n) ∨ (i.wellFormed = true ∧ Effect i s t) := by
  refine ⟨exec_cases, ?_⟩
  rintro (⟨k, n, rfl, h⟩ | ⟨hw, h⟩)
  · exact exec_of_errorCause h
  · exact exec_of_effect hw h

end ExecIff

/-! ## What a step answers -/

section StepAnswers

variable {s t : State}

/-- The error of a step: the fetch's, or the fetched instruction's. -/
def StepError (s : State) (k : ErrorKind) (n : Nat) : Prop :=
  fetch s = .error ⟨k, n⟩ ∨ ∃ i, fetch s = .ok i ∧ ErrorCause i s k n

/-- A step to a next state leaves the state of its error or the effect of the fetched instruction. -/
theorem step_error_or_effect (h : step s = .next t) :
    s.status = .running ∧
      ((∃ k n, t = errorState s k n ∧ StepError s k n) ∨
        ∃ i, fetch s = .ok i ∧ i.wellFormed = true ∧ Effect i s t) := by
  obtain ⟨hr, ⟨i, hf, hx⟩ | ⟨r, hf, rfl⟩⟩ := step_cases h
  · rcases exec_cases hx with ⟨k, n, rfl, hc⟩ | ⟨hw, he⟩
    · exact ⟨hr, .inl ⟨k, n, rfl, .inr ⟨i, hf, hc⟩⟩⟩
    · exact ⟨hr, .inr ⟨i, hf, hw, he⟩⟩
  · exact ⟨hr, .inl ⟨r.kind, r.info, rfl, .inl hf⟩⟩

/-- The byte at `pc` is the opcode of the fetched instruction. -/
theorem fetch_opcode {i : Instr} (hf : fetch s = .ok i) : (encode i).head? = some (s.mem.read s.pc.toNat) := by
  obtain ⟨-, henc⟩ := fetch_encoded hf
  rw [henc]
  cases i <;> rfl

/-- 0x01 is the opcode of HALT alone (30_encoding.md R64). -/
theorem encode_head_eq_halt (i : Instr) : (encode i).head? = some 0x01#8 ↔ i = .halt := by
  cases i <;> simp [encode]

theorem fetched_halt_iff {i : Instr} (hf : fetch s = .ok i) : s.mem.read s.pc.toNat = 0x01#8 ↔ i = .halt := by
  rw [← encode_head_eq_halt, fetch_opcode hf, Option.some_inj]

/-- 10_state.md R24 (D4): a step's effect leaves `pc` in its range, since a fetched instruction lies in Memory. -/
theorem Effect.pc_le_of_fetched {i : Instr} (h : Effect i s t) (hf : fetch s = .ok i) : t.pc.toNat ≤ 256 := by
  obtain ⟨hl, -⟩ := fetch_encoded hf
  rw [h.pc_toNat hl]
  exact pcAfter_le hl

end StepAnswers

/-! ## The invariant -/

section Invariant

variable {i : Instr} {s t : State} {k : ErrorKind} {n : Nat}

theorem legalError_fetch (hp : s.pc.toNat ≤ 256) (hf : fetch s = .error ⟨k, n⟩) : legalError (some k) n := by
  rcases fetch_cases s with ⟨hgt, hf'⟩ | ⟨-, hd, hf'⟩ | ⟨d, -, -, -, ⟨-, hf'⟩ | ⟨-, hf'⟩⟩ <;>
    cases hf.symm.trans hf'
  · exact ⟨by omega, hp⟩
  · exact ⟨BitVec.isLt _, by simpa using hd⟩
  · exact ⟨by decide, by decide⟩

/-- A fetched instruction's error is recorded with a legal number; CALL's `pc + 2` is 256, as its bytes lie in
Memory (60_exceptions.md R153, R154). -/
theorem ErrorCause.legalError (hl : s.pc.toNat + i.length ≤ 256) (h : ErrorCause i s k n) :
    Machine.legalError (some k) n := by
  rcases h with ⟨r, hr, rfl, rfl⟩ | ⟨-, ⟨-, -, rfl, rfl⟩ | ⟨-, -, rfl, rfl⟩ | ⟨⟨a, rfl⟩, -, hp, rfl, rfl⟩⟩
  · have hr7 : 7 < r.toNat := by simpa using List.find?_some hr
    exact ⟨hr7, by omega⟩
  · rfl
  · rfl
  · have hl' : s.pc.toNat + 2 ≤ 256 := hl
    exact ⟨by omega, hl'⟩

theorem StepError.legalError (hp : s.pc.toNat ≤ 256) (h : StepError s k n) : Machine.legalError (some k) n := by
  rcases h with hf | ⟨i, hf, hc⟩
  · exact legalError_fetch hp hf
  · exact hc.legalError (fetch_encoded hf).1

/-- Taking an error with a legal number keeps the invariant (60_exceptions.md R152). -/
theorem State.Inv.errorState (hs : s.Inv) (hl : legalError (some k) n) : (errorState s k n).Inv where
  memWf := hs.memWf
  pcRange := hs.pcRange
  flLegal := hs.flLegal
  runningNoError := nofun
  errLegal := hl

/-- COMPARE writes one of the legal flag values (40_engine_decoder_alu.md R88). -/
theorem compareFlags_legal (u v : Byte) :
    compareFlags u v = 0x01 ∨ compareFlags u v = 0x02 ∨ compareFlags u v = 0x04 := by
  unfold compareFlags
  split
  · exact .inl rfl
  · split
    · exact .inr (.inl rfl)
    · exact .inr (.inr rfl)

/-- An effect keeps canonical memory canonical: the cell a push writes is below 256. -/
theorem Effect.mem_wf (h : Effect i s t) (hm : s.mem.wf = true) : t.mem.wf = true := by
  rcases h.mem_cases with h' | ⟨-, v, h'⟩ <;> rw [h']
  · exact hm
  · exact Memory.write_wf hm (pushAddr_lt s) v

theorem Effect.fl_legal (h : Effect i s t) (hf : s.fl = 0x00 ∨ s.fl = 0x01 ∨ s.fl = 0x02 ∨ s.fl = 0x04) :
    t.fl = 0x00 ∨ t.fl = 0x01 ∨ t.fl = 0x02 ∨ t.fl = 0x04 := by
  rcases h.fl_eq with h' | ⟨a, b, -, h'⟩ <;> rw [h']
  · exact hf
  · exact .inr (compareFlags_legal _ _)

/-- A running engine's effect keeps the invariant: it records no error, and none is there. -/
theorem State.Inv.effect (hs : s.Inv) (hr : s.status = .running) (hf : fetch s = .ok i) (h : Effect i s t) :
    t.Inv := by
  obtain ⟨herr, hinfo⟩ := h.err_errInfo_eq
  exact
    { memWf := h.mem_wf hs.memWf
      pcRange := h.pc_le_of_fetched hf
      flLegal := h.fl_legal hs.flLegal
      runningNoError := fun _ => herr.trans (hs.runningNoError hr)
      errLegal := by rw [herr, hinfo]; exact hs.errLegal }

end Invariant

/-- Settles O19: a step takes an error with a legal number or a fetched instruction's effect, and each keeps the
invariant. -/
theorem stepKeepsTheInvariant : Obligations.StepKeepsTheInvariant := by
  intro s t hs h
  obtain ⟨hr, ⟨k, n, rfl, hc⟩ | ⟨i, hf, -, he⟩⟩ := step_error_or_effect h
  · exact hs.errorState (hc.legalError hs.pcRange)
  · exact hs.effect hr hf he

/-- Settles O17: the reset case of the invariant. -/
theorem resetMeetsTheInvariant : Obligations.ResetMeetsTheInvariant where
  memWf := rfl
  pcRange := by decide
  flLegal := .inl rfl
  runningNoError := fun _ => rfl
  errLegal := rfl

/-! ## HALTED -/

/-- Settles O12: `step` answers `noStep`, the fault `halted`, in HALTED. -/
theorem haltedEngineHasNoStep : Obligations.HaltedEngineHasNoStep := by
  intro s hs
  simp [step, hs, noStep]

/-- Settles O13: an error halts and is recorded; an effect records nothing and halts when it is HALT's, the
instruction whose opcode is 0x01. -/
theorem haltedOnlyByHaltOrError : Obligations.HaltedOnlyByHaltOrError := by
  intro s t hnone h
  obtain ⟨hr, ⟨k, n, rfl, -⟩ | ⟨i, hf, -, he⟩⟩ := step_error_or_effect h
  · simp [errorState]
  · have herr : t.err = none := he.err_errInfo_eq.1.trans hnone
    rw [he.status_eq, hr, herr]
    simp [← fetched_halt_iff hf]

/-! ## Frames: what an instruction leaves unchanged -/

/-- Settles O37: an error keeps `fl`, and only COMPARE's effect writes it. -/
theorem onlyCompareWritesFlags : Obligations.OnlyCompareWritesFlags := by
  intro i s t h hi
  rcases exec_cases h with ⟨k, n, rfl, -⟩ | ⟨-, he⟩
  · rfl
  · exact he.fl_eq.resolve_right fun ⟨a, b, hab, _⟩ => hi a b hab

/-- Settles O38: an error keeps `sp`, and an effect on it is past the stack check, so that it does not wrap. -/
theorem onlyStackInstructionsMoveSp : Obligations.OnlyStackInstructionsMoveSp := by
  intro i s t h
  rcases exec_cases h with ⟨k, n, rfl, -⟩ | ⟨-, he⟩
  · exact .inl rfl
  · exact he.sp_cases

/-- Settles O39: the cell written is at `pushAddr`, so a read anywhere else is as before. -/
theorem onlyPushAndCallWriteOneCell : Obligations.OnlyPushAndCallWriteOneCell := by
  intro i s t hm h
  rcases exec_cases h with ⟨k, n, rfl, -⟩ | ⟨-, he⟩
  · exact ⟨fun _ _ _ => rfl, fun _ _ => rfl⟩
  · rcases he.mem_cases with hsame | ⟨hi, v, hwrite⟩
    · simp [hsame]
    · refine ⟨fun hpush hcall => ?_, fun b hb => ?_⟩
      · rcases hi with ⟨a, ha⟩ | ⟨a, ha⟩
        · exact absurd ha (hpush a)
        · exact absurd ha (hcall a)
      · rw [hwrite, Memory.read_write hm, if_neg hb]

/-- Settles O40: an error keeps every register, and an effect writes the destination alone. -/
theorem onlyTheDestinationRegisterChanges : Obligations.OnlyTheDestinationRegisterChanges := by
  intro i s t j hj h hd
  rcases exec_cases h with ⟨k, n, rfl, -⟩ | ⟨-, he⟩
  · rfl
  · exact he.getElem_regs_eq hj hd

/-- Settles O41: an error keeps the output, and only PRINT_REGISTER's effect appends to it. -/
theorem onlyPrintRegisterEmits : Obligations.OnlyPrintRegisterEmits := by
  intro i s t h
  rcases exec_cases h with ⟨k, n, rfl, -⟩ | ⟨-, he⟩
  · exact .inl rfl
  · exact he.out_cases

/-! ## The output is never read -/

section EarlierOutput

/-- The state with earlier output put before its own. -/
def State.withEarlierOutput (s : State) (earlier : List Byte) : State := { s with out := earlier ++ s.out }

variable {i : Instr} {s t : State} (earlier : List Byte)

theorem Effect.withEarlierOutput (h : Effect i s t) :
    Effect i (s.withEarlierOutput earlier) (t.withEarlierOutput earlier) := by
  have hreg (a : RegByte) : regAt (s.withEarlierOutput earlier) a = regAt s a := rfl
  have hpush : pushAddr (s.withEarlierOutput earlier) = pushAddr s := rfl
  cases i <;> grind [Effect, State.withEarlierOutput]

/-- An instruction's error condition does not read the output, and its effect only appends to it. -/
theorem exec_withEarlierOutput (h : exec i s = .next t) :
    exec i (s.withEarlierOutput earlier) = .next (t.withEarlierOutput earlier) := by
  rcases exec_cases h with ⟨k, n, rfl, hc⟩ | ⟨hw, he⟩
  · exact exec_of_errorCause hc
  · exact exec_of_effect hw (he.withEarlierOutput earlier)

theorem fetch_withEarlierOutput (s : State) : fetch (s.withEarlierOutput earlier) = fetch s := rfl

theorem step_withEarlierOutput (h : step s = .next t) :
    step (s.withEarlierOutput earlier) = .next (t.withEarlierOutput earlier) := by
  obtain ⟨hr, ⟨i, hf, hx⟩ | ⟨r, hf, rfl⟩⟩ := step_cases h <;>
    have hr' : (s.withEarlierOutput earlier).status = .running := hr
  · have hf' : fetch (s.withEarlierOutput earlier) = .ok i := (fetch_withEarlierOutput earlier s).trans hf
    exact (step_fetched hr' hf').trans (exec_withEarlierOutput earlier hx)
  · have hf' : fetch (s.withEarlierOutput earlier) = .error r := (fetch_withEarlierOutput earlier s).trans hf
    exact step_fetch_error hr' hf'

end EarlierOutput

/-- Settles O43: neither the fetch nor the instruction reads the output. -/
theorem engineNeverReadsOutput : Obligations.EngineNeverReadsOutput :=
  fun _ _ earlier h => step_withEarlierOutput earlier h

end Sys2Proof.Machine

/-! SUPPORT and the statements of 20_memory.md: an access outside Memory, and a pushed byte that is fetched. -/

namespace Sys2Proof.Machine

/-! ## Access to one cell -/

theorem memWrite_outside (m : Memory) {a : Nat} (h : 255 < a) (v : Byte) :
    memWrite m a v = .error ⟨.outOfBounds, a⟩ :=
  if_neg (by simp only [Config.memSize]; omega)

/-- Settles O21: up to 255 an access is the canonical memory's own read or write, above 255 it raises. -/
theorem memoryAccessChecksTheBound : Obligations.MemoryAccessChecksTheBound := by
  intro m a v hm
  refine ⟨fun hle => ?_, fun hgt => ⟨memRead_outside m hgt, memWrite_outside m hgt v⟩⟩
  have ha : a < 256 := by omega
  exact ⟨memRead_inside m ha, m.write a v, memWrite_inside m ha v, Memory.write_wf hm ha v,
    fun b => Memory.read_write hm a b v⟩

/-! ## A pushed byte is fetched -/

theorem decodeOpcode_eq_none (op : Byte) :
    decodeOpcode op = none ↔ ∀ row ∈ opcodeTable, row.1.toNat ≠ op.toNat := by
  simp [decodeOpcode, BitVec.toNat_eq]

theorem illegalOpcode_iff (v : Nat) : illegalOpcode v = true ↔ ∃ r ∈ illegalRanges, r.1 ≤ v ∧ v ≤ r.2 := by
  simp [illegalOpcode]

/-- The ranges of 30_encoding.md R66 and the twelve rows of the decode table share out the 256 bytes. -/
theorem decodeOpcode_eq_none_iff (op : Byte) : decodeOpcode op = none ↔ illegalOpcode op.toNat = true := by
  have hop : op.toNat < 256 := op.isLt
  simp only [decodeOpcode_eq_none, illegalOpcode_iff, opcodeTable, illegalRanges, List.forall_mem_cons,
    List.exists_mem_cons_iff, List.not_mem_nil, false_imp_iff, false_and, implies_true, exists_false, and_true, or_false,
    BitVec.toNat_ofNat]
  omega

theorem fetch_illegal {s : State} (hp : s.pc.toNat ≤ 255) (hd : decodeOpcode (s.mem.read s.pc.toNat) = none) :
    fetch s = .error ⟨.decodeError, (s.mem.read s.pc.toNat).toNat⟩ := by
  simp [fetch, memRead_inside _ (Nat.lt_succ_of_le hp), decodeStage_none hd]

/-- A step at an illegal opcode raises DecodeError of it (30_encoding.md R66, 60_exceptions.md R155). -/
theorem step_illegalOpcode {s : State} (hr : s.status = .running) (hp : s.pc.toNat ≤ 255)
    (h : illegalOpcode (s.mem.read s.pc.toNat).toNat = true) :
    step s = .next (errorState s .decodeError (s.mem.read s.pc.toNat).toNat) :=
  step_fetch_error hr (fetch_illegal hp ((decodeOpcode_eq_none_iff _).2 h))

/-- PUSH with room on the stack completes, and the cell it leaves at `pushAddr` reads as the register's value
(44_stack.md R121). -/
theorem exec_push_read {s : State} {a : RegByte} (ha : a.toNat < 8) (hs : s.sp ≠ 0) (hm : s.mem.wf = true) :
    ∃ t, exec (.push a) s = .next t ∧ t.mem.read (pushAddr s) = s.regs[a.toNat] := by
  refine ⟨_, exec_of_effect (wellFormed_one rfl ha) ⟨hs, rfl⟩, ?_⟩
  simp [Memory.read_write hm, regAt, ha]

/-- Settles O53: a step reads the opcode from the memory as it stands, so it finds the byte that PUSH stored. -/
theorem pushedByteIsWhatIsFetched : Obligations.PushedByteIsWhatIsFetched := by
  intro s a ha hs hm _
  obtain ⟨t, ht, hread⟩ := exec_push_read ha hs hm
  refine ⟨t, ht, fun u hmem hr hpc hill => ?_⟩
  have hbyte : u.mem.read u.pc.toNat = s.regs[a.toNat] := by rw [hmem, hpc, hread]
  have hp : u.pc.toNat ≤ 255 := hpc ▸ Nat.le_of_lt_succ (pushAddr_lt s)
  simpa only [hbyte] using step_illegalOpcode hr hp (hbyte ▸ hill)

end Sys2Proof.Machine

/-! SUPPORT and the statements of 30_encoding.md: decoding and encoding are inverse to each other, and the opcodes
that no instruction has. -/

namespace Sys2Proof.Machine

/-! ## Decoding is the inverse of encoding -/

section RoundTrip

variable {op : Byte} {d : Descriptor} {a b : Byte} {bytes rest : List Byte} {i : Instr}

/-- The operand bytes of a split and the rest are all the bytes that were there (30_encoding.md R61). -/
theorem splitOperands_eq_some {n : Nat} (h : splitOperands n bytes = some (a, b, rest)) :
    bytes = [a, b].take n ++ rest := by
  unfold splitOperands at h
  split at h <;> cases h <;> rfl

theorem decode_cons (hd : decodeOpcode op = some d) (hs : splitOperands d.n bytes = some (a, b, rest)) :
    decode (op :: bytes) = .ok (d.id.build a b, rest) := by
  simp [decode, hd, hs]

/-- Bytes that decode are an opcode of the table, the operand bytes its row counts, and the rest. -/
theorem decode_cases (h : decode bytes = .ok (i, rest)) :
    ∃ op tail d a b, bytes = op :: tail ∧ decodeOpcode op = some d ∧ splitOperands d.n tail = some (a, b, rest) ∧
      i = d.id.build a b := by
  cases bytes with
  | nil => cases h
  | cons op tail =>
    cases hd : decodeOpcode op with
    | none => simp [decode, hd] at h
    | some d =>
      cases hs : splitOperands d.n tail with
      | none => simp [decode, hd, hs] at h
      | some split =>
        obtain ⟨a, b, rest'⟩ := split
        cases (decode_cons hd hs).symm.trans h
        exact ⟨op, tail, d, a, b, rfl, hd, hs, rfl⟩

/-- The instruction of a table row is encoded as the opcode and as many operand bytes as the row counts. -/
theorem encode_build_row (hd : decodeOpcode op = some d) (a b : Byte) :
    encode (d.id.build a b) = op :: [a, b].take d.n := by
  obtain ⟨-, hlen, hop⟩ := opcodeTable_row _ (decodeOpcode_cases hd)
  rw [encode_build hop, build_length, hlen, List.take_succ_cons]

/-- Decoding finds the row of the encoding's opcode and takes the operand bytes that the row counts. -/
theorem decode_encode_append (i : Instr) (rest : List Byte) : decode (encode i ++ rest) = .ok (i, rest) := by
  cases i <;> rfl

theorem eq_encode_append_of_decode (h : decode bytes = .ok (i, rest)) : bytes = encode i ++ rest := by
  obtain ⟨op, tail, d, a, b, rfl, hd, hs, rfl⟩ := decode_cases h
  rw [encode_build_row hd, List.cons_append, ← splitOperands_eq_some hs]

end RoundTrip

/-- Settles O3: the opcode byte finds the instruction's row, whatever the operand bytes. -/
theorem decodeOfEncodeIsTheInstruction : Obligations.DecodeOfEncodeIsTheInstruction := decode_encode_append

/-- Settles O4: the row of the opcode says how many operand bytes both the decoder and the encoder take. -/
theorem decodedBytesAreTheEncoding : Obligations.DecodedBytesAreTheEncoding :=
  fun _ _ _ => eq_encode_append_of_decode

/-! ## Opcode-table words -/

theorem decodeTableWord_of_bytes {nbits w : Nat} {i : Instr} (rest : List Byte)
    (h : tableWordBytes nbits w = encode i ++ rest) : decodeTableWord nbits w = some i := by
  simp [decodeTableWord, h, decode_encode_append]

theorem decodeTableWord_illegal {nbits w : Nat} (h : decodeOpcode (BitVec.ofNat 8 (w % 2 ^ nbits)) = none) :
    decodeTableWord nbits w = none := by
  simp [decodeTableWord, tableWordBytes, decode, h]

/-- Settles O1: each word's bytes are the encoding of its instruction and then zeros, and 0x00 has no row. -/
theorem tableWordsDecode : Obligations.TableWordsDecode :=
  ⟨decodeTableWord_of_bytes [0, 0] rfl, decodeTableWord_of_bytes [0, 0] rfl,
    decodeTableWord_of_bytes [0] rfl, decodeTableWord_of_bytes [0] rfl, decodeTableWord_of_bytes [0] rfl,
    decodeTableWord_of_bytes [0] rfl, decodeTableWord_of_bytes [0] rfl, decodeTableWord_of_bytes [0] rfl,
    decodeTableWord_of_bytes [0] rfl,
    decodeTableWord_of_bytes [] rfl, decodeTableWord_of_bytes [] rfl, decodeTableWord_of_bytes [] rfl,
    decodeTableWord_illegal rfl⟩

/-! ## Illegal opcodes -/

theorem decodeOpcode_ofNat_eq_none_iff {v : Nat} (hv : v < 256) :
    decodeOpcode (BitVec.ofNat 8 v) = none ↔ illegalOpcode v = true := by
  rw [decodeOpcode_eq_none_iff, BitVec.toNat_ofNat, Nat.mod_eq_of_lt hv]

/-- The byte values that have a row are the opcodes of the table, each of them once. -/
theorem filter_decodeOpcode_perm :
    ((List.range 256).filter fun v => !(decodeOpcode (BitVec.ofNat 8 v)).isNone).Perm
      (opcodeTable.map fun row => row.1.toNat) := by
  refine (List.perm_ext_iff_of_nodup (List.nodup_range.filter _) (by decide)).2 fun v => ?_
  simp only [List.mem_filter, List.mem_range, Bool.not_eq_true', Option.isNone_eq_false_iff, Option.isSome_iff_ne_none,
    ne_eq, decodeOpcode_eq_none, List.mem_map, BitVec.toNat_ofNat, not_forall, not_not, exists_prop]
  constructor
  · rintro ⟨hv, row, hmem, hop⟩
    exact ⟨row, hmem, hop.trans (Nat.mod_eq_of_lt hv)⟩
  · rintro ⟨row, hmem, rfl⟩
    exact ⟨row.1.isLt, row, hmem, (Nat.mod_eq_of_lt row.1.isLt).symm⟩

/-- 30_encoding.md R66: 256 values less the twelve rows of the table. -/
theorem length_filter_decodeOpcode_isNone :
    ((List.range 256).filter fun v => (decodeOpcode (BitVec.ofNat 8 v)).isNone).length = 244 := by
  have hrows := filter_decodeOpcode_perm.length_eq
  have htotal := List.length_eq_length_filter_add (l := List.range 256)
    fun v => (decodeOpcode (BitVec.ofNat 8 v)).isNone
  rw [hrows, List.length_range, List.length_map] at htotal
  have htwelve : opcodeTable.length = 12 := rfl
  omega

/-- Settles O5: the table's rows and the listed ranges share out the bytes, and the fetch stops at the opcode. -/
theorem illegalOpcodeRaisesDecodeError : Obligations.IllegalOpcodeRaisesDecodeError :=
  ⟨fun _ => decodeOpcode_ofNat_eq_none_iff, length_filter_decodeOpcode_isNone, fun _ => step_illegalOpcode⟩

end Sys2Proof.Machine

/-! SUPPORT and the statements of 40_engine_decoder_alu.md: what a step fetches is what the decoder reads from the
bytes at `pc`; how a run ends; and the ALU. -/

namespace Sys2Proof.Machine

/-! ## The bytes from an address to the end of Memory -/

section MemoryBytes

/-- The bytes of a memory from an address to the last cell. -/
def Memory.bytesFrom (m : Memory) (a : Nat) : List Byte := (List.range (256 - a)).map fun k => m.read (a + k)

theorem bytesFromPc_eq (s : State) : bytesFromPc s = s.mem.bytesFrom s.pc.toNat := rfl

theorem Memory.bytesFrom_inside (m : Memory) {a : Nat} (ha : a < 256) :
    m.bytesFrom a = m.read a :: m.bytesFrom (a + 1) := by
  have hlen : 256 - a = 256 - (a + 1) + 1 := by omega
  simp [Memory.bytesFrom, hlen, List.range_succ_eq_map, Nat.add_assoc, Nat.add_comm 1]

theorem Memory.bytesFrom_outside (m : Memory) {a : Nat} (ha : 255 < a) : m.bytesFrom a = [] := by
  simp [Memory.bytesFrom, show 256 - a = 0 by omega]

theorem Memory.length_bytesFrom (m : Memory) (a : Nat) : (m.bytesFrom a).length = 256 - a := by
  simp [Memory.bytesFrom]

/-- Storing bytes leaves the cells below them (20_memory.md R42). -/
theorem Memory.read_storeBytes_below {m : Memory} (hm : m.wf = true) {a b : Nat} (hb : b < a) (bs : List Byte) :
    (storeBytes m a bs).read b = m.read b := by
  induction bs generalizing m a with
  | nil => rfl
  | cons v vs ih =>
    have hb' : b < a + 1 := by omega
    by_cases ha : a < 256
    · simp [storeBytes, ha, ih (Memory.write_wf hm ha v) hb', Memory.read_write hm, hb.ne]
    · simp [storeBytes, ha, ih hm hb']

/-- Bytes stored inside Memory are the bytes found there, in their order (20_memory.md R43). -/
theorem Memory.bytesFrom_storeBytes {m : Memory} (hm : m.wf = true) {a : Nat} {bs : List Byte}
    (hl : a + bs.length ≤ 256) :
    (storeBytes m a bs).bytesFrom a = bs ++ (storeBytes m a bs).bytesFrom (a + bs.length) := by
  induction bs generalizing m a with
  | nil => rfl
  | cons v vs ih =>
    rw [List.length_cons] at hl
    have ha : a < 256 := by omega
    have hwf := Memory.write_wf hm ha v
    have hstore : storeBytes m a (v :: vs) = storeBytes (m.write a v) (a + 1) vs := by simp [storeBytes, ha]
    have hread : (storeBytes (m.write a v) (a + 1) vs).read a = v := by
      rw [Memory.read_storeBytes_below hwf (Nat.lt_succ_self a), Memory.read_write hm, if_pos rfl]
    rw [hstore, Memory.bytesFrom_inside _ ha, hread, ih hwf (by omega), List.length_cons, List.cons_append,
      Nat.add_assoc, Nat.add_comm 1]

end MemoryBytes

/-! ## The fetch is the decoding of the bytes at `pc` -/

section FetchDecodes

variable {s : State} {i : Instr} {rest : List Byte}

theorem splitOperands_eq_none {n : Nat} {bytes : List Byte} (h : bytes.length < n) : splitOperands n bytes = none := by
  unfold splitOperands
  split
  · exact absurd h (Nat.not_lt_zero _)
  · rw [List.length_cons] at h
    omega
  · rw [List.length_cons, List.length_cons] at h
    omega
  · rfl

/-- A fetched instruction is what the bytes from `pc` decode to: they begin with its encoding. -/
theorem decode_of_fetch (hf : fetch s = .ok i) :
    decode (bytesFromPc s) = .ok (i, s.mem.bytesFrom (s.pc.toNat + i.length)) := by
  obtain ⟨hl, henc⟩ := fetch_encoded hf
  have hlen : i.length = 1 ∨ i.length = 2 ∨ i.length = 3 := by cases i <;> simp [Instr.length]
  have hbytes : bytesFromPc s = encode i ++ s.mem.bytesFrom (s.pc.toNat + i.length) := by
    rw [henc, bytesFromPc_eq]
    rcases hlen with hn | hn | hn <;> rw [hn] at hl ⊢
    · rw [Memory.bytesFrom_inside _ (by omega)]
      rfl
    · rw [Memory.bytesFrom_inside _ (by omega), Memory.bytesFrom_inside _ (by omega)]
      rfl
    · rw [Memory.bytesFrom_inside _ (by omega), Memory.bytesFrom_inside _ (by omega),
        Memory.bytesFrom_inside _ (by omega)]
      rfl
  rw [hbytes, decode_encode_append]

/-- What a step raises where decoding the bytes from `pc` is rejected (40_engine_decoder_alu.md R81,
60_exceptions.md R155); above 256, which no run reaches, the number is `pc` (log 7). -/
def rejectRaise (s : State) : DecodeReject → Raise
  | .illegalOpcode op => ⟨.decodeError, op.toNat⟩
  | .truncated => ⟨.outOfBounds, max 256 s.pc.toNat⟩

/-- The fetch answers what decoding the bytes from `pc` answers, a rejection as the error it raises. -/
theorem fetch_eq_decode (s : State) :
    fetch s = ((decode (bytesFromPc s)).map Prod.fst).mapError (rejectRaise s) := by
  rcases fetch_cases s with ⟨hp, hf⟩ | ⟨hp, hd, hf⟩ | ⟨d, hp, -, hd, ⟨hgt, hf⟩ | ⟨-, hf⟩⟩
  · have hmax : max 256 s.pc.toNat = s.pc.toNat := by omega
    simp [hf, bytesFromPc_eq, Memory.bytesFrom_outside _ hp, decode, Except.map, Except.mapError, rejectRaise, hmax]
  · have hbytes := Memory.bytesFrom_inside s.mem (Nat.lt_succ_of_le hp)
    simp [hf, bytesFromPc_eq, hbytes, decode, hd, Except.map, Except.mapError, rejectRaise]
  · have hbytes := Memory.bytesFrom_inside s.mem (Nat.lt_succ_of_le hp)
    have hsplit : splitOperands d.n (s.mem.bytesFrom (s.pc.toNat + 1)) = none :=
      splitOperands_eq_none (by rw [Memory.length_bytesFrom]; omega)
    have hmax : max 256 s.pc.toNat = 256 := by omega
    simp [hf, bytesFromPc_eq, hbytes, decode, hd, hsplit, Except.map, Except.mapError, rejectRaise, hmax]
  · rw [decode_of_fetch hf, hf]
    rfl

theorem fetch_of_decode (h : decode (bytesFromPc s) = .ok (i, rest)) : fetch s = .ok i := by
  rw [fetch_eq_decode, h]
  rfl

theorem fetch_of_decode_error {r : DecodeReject} (h : decode (bytesFromPc s) = .error r) :
    fetch s = .error (rejectRaise s r) := by
  rw [fetch_eq_decode, h]
  rfl

theorem step_of_decode (hr : s.status = .running) (h : decode (bytesFromPc s) = .ok (i, rest)) : step s = exec i s :=
  step_fetched hr (fetch_of_decode h)

theorem step_of_decode_error {r : DecodeReject} (hr : s.status = .running)
    (h : decode (bytesFromPc s) = .error r) : step s = .next (s.raised (rejectRaise s r)) :=
  step_fetch_error hr (fetch_of_decode_error h)

theorem length_tableWordBytes (nbits w : Nat) : (tableWordBytes nbits w).length = 3 := rfl

/-- Bytes placed for the next fetch decode there as they do on their own. -/
theorem decode_withFetchWord {nbits w : Nat} (hm : s.mem.wf = true) (hp : s.pc.toNat ≤ 253)
    (h : decodeTableWord nbits w = some i) :
    ∃ rest, decode (bytesFromPc (s.withFetchWord nbits w)) = .ok (i, rest) := by
  have hroom : s.pc.toNat + (tableWordBytes nbits w).length ≤ 256 := by
    rw [length_tableWordBytes]
    omega
  obtain ⟨tail, htail⟩ : ∃ tail, bytesFromPc (s.withFetchWord nbits w) = tableWordBytes nbits w ++ tail :=
    ⟨_, Memory.bytesFrom_storeBytes hm hroom⟩
  unfold decodeTableWord at h
  split at h
  next j rest hword =>
    cases h
    exact ⟨rest ++ tail, by rw [htail, eq_encode_append_of_decode hword, List.append_assoc, decode_encode_append]⟩
  next => cases h

end FetchDecodes

/-- Settles O6: the fetch answers the decoded instruction, and the step hands it to `exec`. -/
theorem stepRunsDecodedInstruction : Obligations.StepRunsDecodedInstruction :=
  fun _ _ _ => step_of_decode

/-- Settles O7: the fetch raises the rejection of the decoder, and up to 256 Memory ends at address 256. -/
theorem stepRaisesWhereNothingDecodes : Obligations.StepRaisesWhereNothingDecodes := by
  intro s hr
  refine ⟨fun op h => step_of_decode_error hr h, fun hp h => ?_⟩
  rw [step_of_decode_error hr h, rejectRaise, Nat.max_eq_left hp]
  rfl

/-- Settles O8: the three stored bytes are read back from `pc` on, so the step decodes the word. -/
theorem stepAfterWithFetchWordRunsTheWord : Obligations.StepAfterWithFetchWordRunsTheWord := by
  intro s nbits w i hr hm hp h
  obtain ⟨rest, hdecode⟩ := decode_withFetchWord hm hp h
  exact step_of_decode hr hdecode

/-- Settles O11: an error of the fetch is a next state, and so is what every instruction answers. -/
theorem runningEngineAlwaysSteps : Obligations.RunningEngineAlwaysSteps := by
  intro s hr
  cases hf : fetch s with
  | ok i =>
    rw [step_fetched hr hf]
    exact exec_next i s
  | error r => exact ⟨_, step_fetch_error hr hf⟩

/-! ## Runs -/

section Runs

variable {s t : State}

/-- What every step keeps holds all along a run. -/
theorem Reaches.keeps {P : State → Prop} (hstep : ∀ t u, P t → step t = .next u → P u) (h : Reaches s t)
    (hs : P s) : P t := by
  induction h with
  | refl => exact hs
  | tail _ hlast ih => exact hstep _ _ ih hlast

/-- A step keeps it so that no error is recorded while RUNNING: an error halts, and an effect records none. -/
theorem step_keeps_running_noError (hs : s.status = .running → s.err = none) (h : step s = .next t)
    (ht : t.status = .running) : t.err = none := by
  obtain ⟨hr, ⟨k, n, rfl, -⟩ | ⟨i, -, -, he⟩⟩ := step_error_or_effect h
  · cases ht
  · exact he.err_errInfo_eq.1.trans (hs hr)

/-- 10_state.md R28 along a run: while RUNNING no error is recorded. -/
theorem Reaches.err_eq_none_of_running (h : Reaches s t) (hs : s.err = none) (ht : t.status = .running) :
    t.err = none :=
  h.keeps (P := fun u => u.status = .running → u.err = none)
    (fun _ _ hprev hstep => step_keeps_running_noError hprev hstep) (fun _ => hs) ht

end Runs

/-- Settles O15: the last step of the run starts in RUNNING without an error, so it halts by HALT or by an error. -/
theorem runEndsByHaltOrByError : Obligations.RunEndsByHaltOrByError := by
  intro s t hr hs hrun ht
  cases hrun with
  | refl => cases hr.symm.trans ht
  | @tail u _ hreach hlast =>
    have hu : u.status = .running := (step_cases hlast).1
    have hnone : u.err = none := hreach.err_eq_none_of_running hs hu
    by_cases herr : t.err = none
    · have hhalt : u.mem.read u.pc.toNat = 0x01 :=
        ((haltedOnlyByHaltOrError u t hnone hlast).1 ht).resolve_right fun h => h herr
      exact .inr ⟨herr, u, hreach, hu, hhalt, hlast⟩
    · exact .inl herr

/-! ## The decode table -/

/-- The opcodes of the table are distinct, so that each row is found by its opcode. -/
theorem decodeOpcode_row : ∀ row ∈ opcodeTable, decodeOpcode row.1 = some row.2 := by
  decide

theorem decodeOpcode_eq_some_iff {op : Byte} {d : Descriptor} : decodeOpcode op = some d ↔ (op, d) ∈ opcodeTable :=
  ⟨decodeOpcode_cases, decodeOpcode_row (op, d)⟩

/-- Settles O2: each descriptor is a row of the table. -/
theorem decodeTableHasTheSpecsRows : Obligations.DecodeTableHasTheSpecsRows := by
  simp only [Obligations.DecodeTableHasTheSpecsRows, decodeOpcode_eq_some_iff]
  decide

/-! ## The ALU -/

/-- Settles O23: a byte made from a natural number is that number modulo 256. -/
theorem aluAppliesModulo256 : Obligations.AluAppliesModulo256 :=
  fun _ _ => ⟨⟨_, rfl, BitVec.toNat_ofNat ..⟩, ⟨_, rfl, BitVec.toNat_ofNat ..⟩, fun _ => ⟨_, rfl, rfl⟩⟩

/-- MULTIPLY with legal indices completes and leaves in its first register the product's low byte, computed from the
old values (43_arithmetic.md R110). -/
theorem exec_multiply_destination (s : State) {a b : RegByte} (ha : a.toNat < 8) (hb : b.toNat < 8) :
    ∃ t, exec (.multiply a b) s = .next t ∧
      t.regs[a.toNat] = BitVec.ofNat 8 (s.regs[a.toNat].toNat * s.regs[b.toNat].toNat) := by
  refine ⟨_, exec_of_effect (wellFormed_two rfl ha hb) ⟨ha, rfl⟩, ?_⟩
  simp [regAt, ha, hb]

/-- Settles O48: the product of the old values is the same in either order. -/
theorem multiplyCommutes : Obligations.MultiplyCommutes := by
  intro s a b ha hb
  obtain ⟨t, ht, hta⟩ := exec_multiply_destination s ha hb
  obtain ⟨u, hu, hub⟩ := exec_multiply_destination s hb ha
  refine ⟨t, u, ht, hu, ?_, ?_⟩
  · rw [hta, hub, Nat.mul_comm]
  · rw [hta, BitVec.toNat_ofNat]

end Sys2Proof.Machine

/-! SUPPORT and the statements of 41_system.md: HALT, and PRINT_REGISTER after the instruction that loads a literal. -/

namespace Sys2Proof.Machine

/-- Settles O24: HALT has no operand to check, so its effect is what it answers. -/
theorem haltAdvancesAndStops : Obligations.HaltAdvancesAndStops :=
  ⟨rfl, fun _ => exec_of_effect rfl rfl⟩

/-- LOAD_IMMEDIATE with a legal index completes, whatever the literal (42_data_movement.md R105). -/
theorem exec_loadImmediate (s : State) {a : RegByte} (ha : a.toNat < 8) (b : Byte) :
    exec (.loadImmediate a b) s = .next { s with regs := s.regs.set a.toNat b, pc := s.pc + 3 } :=
  exec_of_effect (wellFormed_one rfl ha) ⟨ha, rfl⟩

/-- PRINT_REGISTER with a legal index completes and emits the register's value (41_system.md R101). -/
theorem exec_printRegister (s : State) {a : RegByte} (ha : a.toNat < 8) :
    exec (.printRegister a) s = .next { s with out := s.out ++ [s.regs[a.toNat]], pc := s.pc + 2 } :=
  exec_of_effect (wellFormed_one rfl ha) (by simp [Effect, regAt, ha])

/-- Settles O47: the register printed is the one just written, so it reads back the literal. -/
theorem loadedLiteralIsPrinted : Obligations.LoadedLiteralIsPrinted := by
  intro s r v hr
  refine ⟨_, _, exec_loadImmediate s hr v, exec_printRegister _ hr, ?_⟩
  have hread : (s.regs.set r.toNat v)[r.toNat] = v := Vector.getElem_set_self hr
  rw [hread]

end Sys2Proof.Machine

/-! SUPPORT and the statement of 44_stack.md: PUSH and POP one by one, and a list of pushes undone by pops in reverse
order. -/

namespace Sys2Proof.Machine

/-! ## Instructions one after another -/

section ExecAll

variable {i : Instr} {is : List Instr} {s t : State}

theorem execAll_cons (h : exec i s = .next t) : execAll (i :: is) s = execAll is t := by
  simp [execAll, h]

theorem execAll_append (h : execAll is s = .next t) (js : List Instr) : execAll (is ++ js) s = execAll js t := by
  induction is generalizing s with
  | nil =>
    cases h
    rfl
  | cons i is ih =>
    obtain ⟨u, hu⟩ := exec_next i s
    rw [execAll_cons hu] at h
    rw [List.cons_append, execAll_cons hu, ih h]

end ExecAll

/-! ## One PUSH, one POP -/

section PushPop

variable {s : State} {a : RegByte}

/-- PUSH with room on the stack completes: the cell at the new `sp` reads as the register, every other cell and every
register as before (44_stack.md R121). -/
theorem exec_push_frame (ha : a.toNat < 8) (hs : s.sp ≠ 0) (hm : s.mem.wf = true) :
    ∃ t, exec (.push a) s = .next t ∧ t.sp = s.sp - 1 ∧ t.regs = s.regs ∧ t.mem.wf = true ∧
      ∀ b, t.mem.read b = if b = t.sp.toNat then s.regs[a.toNat] else s.mem.read b := by
  have heffect : Effect (.push a) s _ := ⟨hs, rfl⟩
  refine ⟨_, exec_of_effect (wellFormed_one rfl ha) heffect, rfl, rfl, heffect.mem_wf hm, fun b => ?_⟩
  simp [Memory.read_write hm, regAt, ha, pushAddr]

/-- POP completes where `sp` does not stand at the last cell (44_stack.md R122). -/
theorem exec_pop (ha : a.toNat < 8) (hs : s.sp ≠ 255) :
    exec (.pop a) s = .next { s with
      regs := s.regs.set a.toNat (s.mem.read s.sp.toNat), sp := s.sp + 1, pc := s.pc + 2 } :=
  exec_of_effect (wellFormed_one rfl ha) ⟨hs, ha, rfl⟩

/-- POP into a register that the popped cell reads as moves only `sp` and `pc`. -/
theorem exec_pop_of_read_eq (ha : a.toNat < 8) (hs : s.sp ≠ 255) (hread : s.mem.read s.sp.toNat = s.regs[a.toNat]) :
    exec (.pop a) s = .next { s with sp := s.sp + 1, pc := s.pc + 2 } := by
  rw [exec_pop ha hs, hread, Vector.set_getElem_self]

end PushPop

/-- Settles O50, by induction on the pushes: the first push is undone by the last pop, and what lies between leaves
its cell, which is at or above the `sp` it starts from, and the registers as they were. -/
theorem pushesAndPopsRoundTrip : Obligations.PushesAndPopsRoundTrip := by
  intro rs
  induction rs with
  | nil => exact fun s _ _ _ => ⟨s, s, rfl, rfl, rfl, rfl, rfl, rfl, fun _ _ => rfl⟩
  | cons r rs ih =>
    intro s hlegal hm hlen
    obtain ⟨hr, hrs⟩ := List.forall_mem_cons.1 hlegal
    rw [List.length_cons] at hlen
    have hroom : s.sp ≠ 0 := by bv_omega
    obtain ⟨p, hpush, hpsp, hpregs, hpm, hpread⟩ := exec_push_frame hr hroom hm
    have hpsp' : p.sp.toNat = s.sp.toNat - 1 := by bv_omega
    obtain ⟨t, q, hpushes, htsp, htregs, hpops, hqsp, hqregs, hqread⟩ := ih p hrs hpm (by omega)
    have hcell : q.mem.read q.sp.toNat = q.regs[r.toNat] := by
      rw [hqsp, hqread _ (.inr le_rfl), hpread, if_pos rfl]
      simp only [hqregs, hpregs]
    have hpop := exec_pop_of_read_eq hr (show q.sp ≠ 255 by bv_omega) hcell
    refine ⟨t, { q with sp := q.sp + 1, pc := q.pc + 2 }, ?_, ?_, htregs.trans hpregs, ?_, ?_,
      hqregs.trans hpregs, fun b hb => ?_⟩
    · rw [List.map_cons, execAll_cons hpush, hpushes]
    · rw [htsp, List.length_cons]
      omega
    · rw [List.reverse_cons, List.map_append, execAll_append hpops]
      exact execAll_cons hpop
    · show q.sp + 1 = s.sp
      rw [hqsp, hpsp, BitVec.sub_add_cancel]
    · rw [List.length_cons] at hb
      show q.mem.read b = s.mem.read b
      rw [hqread b (by omega), hpread, if_neg (by omega)]

end Sys2Proof.Machine

/-! SUPPORT and the statement of 45_call_return.md: CALL and RETURN one by one, and a RETURN that finds the cell as
CALL left it. -/

namespace Sys2Proof.Machine

section CallReturn

variable {s : State} {a : RegByte}

/-- CALL with room on the stack and a return address in Memory completes: `pc` is the register's value, and the cell
at the new `sp` reads as the return address (45_call_return.md R130). -/
theorem exec_call_frame (ha : a.toNat < 8) (hs : s.sp ≠ 0) (hp : s.pc.toNat ≤ 253) (hm : s.mem.wf = true) :
    ∃ t, exec (.call a) s = .next t ∧ t.sp = s.sp - 1 ∧ t.pc.toNat = s.regs[a.toNat].toNat ∧
      (t.mem.read t.sp.toNat).toNat = s.pc.toNat + 2 := by
  refine ⟨_, exec_of_effect (wellFormed_one rfl ha) ⟨hs, hp, rfl⟩, rfl, ?_, ?_⟩
  · rw [zext9_toNat, regAt, dif_pos ha]
  · have hbyte : s.pc.toNat + 2 < 256 := by omega
    simp [Memory.read_write hm, pushAddr, Nat.mod_eq_of_lt hbyte]

/-- RETURN completes where `sp` does not stand at the last cell (45_call_return.md R131). -/
theorem exec_ret (hs : s.sp ≠ 255) :
    exec .ret s = .next { s with sp := s.sp + 1, pc := zext9 (s.mem.read s.sp.toNat) } :=
  exec_of_effect rfl ⟨hs, rfl⟩

end CallReturn

/-- Settles O51: CALL's decrement does not wrap, so `sp` is below the last cell and RETURN pops what CALL pushed. -/
theorem returnResumesAfterTheCall : Obligations.ReturnResumesAfterTheCall := by
  intro s a ha hs hp hm
  obtain ⟨t, ht, hsp, hpc, hcell⟩ := exec_call_frame ha hs hp hm
  refine ⟨t, ht, hpc, fun u husp hucell => ⟨_, exec_ret (show u.sp ≠ 255 by bv_omega), ?_, ?_⟩⟩
  · rw [zext9_toNat, husp, hucell, hcell]
  · show u.sp + 1 = s.sp
    rw [husp, hsp, BitVec.sub_add_cancel]

end Sys2Proof.Machine

/-! SUPPORT and the statement of 46_compare_branch.md: COMPARE and the conditional jumps one by one, and a jump in the
state that a COMPARE leaves. -/

namespace Sys2Proof.Machine

/-- `E` of the value COMPARE writes says whether the two bytes are equal (40_engine_decoder_alu.md R88). -/
theorem flagE_compareFlags (u v : Byte) : flagE (compareFlags u v) = decide (u = v) := by
  unfold compareFlags
  split
  next heq =>
    rw [decide_eq_true heq]
    rfl
  next hne =>
    rw [decide_eq_false hne]
    split <;> rfl

section CompareBranch

variable (s : State) {a b : RegByte}

/-- COMPARE with legal indices completes and writes only `fl` and `pc` (46_compare_branch.md R140). -/
theorem exec_compare (ha : a.toNat < 8) (hb : b.toNat < 8) :
    exec (.compare a b) s = .next { s with fl := compareFlags s.regs[a.toNat] s.regs[b.toNat], pc := s.pc + 3 } :=
  exec_of_effect (wellFormed_two rfl ha hb) (by simp [Effect, regAt, ha, hb])

/-- JUMP_IF_EQUAL with a legal index completes and goes by `E` (46_compare_branch.md R142). -/
theorem exec_jumpIfEqual (ha : a.toNat < 8) :
    exec (.jumpIfEqual a) s = .next { s with pc := if flagE s.fl then zext9 s.regs[a.toNat] else s.pc + 2 } :=
  exec_of_effect (wellFormed_one rfl ha) (by simp [Effect, regAt, ha])

/-- JUMP_IF_NOT_EQUAL with a legal index completes and goes by `E` (46_compare_branch.md R143). -/
theorem exec_jumpIfNotEqual (ha : a.toNat < 8) :
    exec (.jumpIfNotEqual a) s = .next { s with pc := if flagE s.fl then s.pc + 2 else zext9 s.regs[a.toNat] } :=
  exec_of_effect (wellFormed_one rfl ha) (by simp [Effect, regAt, ha])

end CompareBranch

/-- Settles O49: the jumps read `E`, and `E` as COMPARE leaves it says whether the registers were equal. -/
theorem branchesFollowTheComparison : Obligations.BranchesFollowTheComparison := by
  intro s a b c ha hb hc
  have hE := flagE_compareFlags s.regs[a.toNat] s.regs[b.toNat]
  refine ⟨_, exec_compare s ha hb, rfl, fun heq => ?_, fun hne => ?_⟩
  · rw [decide_eq_true heq] at hE
    rw [exec_jumpIfEqual _ hc, exec_jumpIfNotEqual _ hc, hE]
    exact ⟨rfl, rfl⟩
  · rw [decide_eq_false hne] at hE
    rw [exec_jumpIfEqual _ hc, exec_jumpIfNotEqual _ hc, hE]
    exact ⟨rfl, rfl⟩

end Sys2Proof.Machine

/-! SUPPORT and the statements of 60_exceptions.md. HALTED is final, and the two sources of a step's error, the fetch
and the fetched instruction, name only kinds other than UnsupportedOperation. -/

namespace Sys2Proof.Machine

/-- Settles O14: along a run from a HALTED state every state is that state, which has no step. -/
theorem haltedStateIsFinal : Obligations.HaltedStateIsFinal := by
  intro s t hs hrun
  refine hrun.keeps (P := fun u => u = s) ?_ rfl
  rintro _ u rfl hstep
  rw [haltedEngineHasNoStep _ hs] at hstep
  cases hstep

section UnsupportedOperation

variable {i : Instr} {s : State} {k : ErrorKind} {n : Nat}

/-- Fetching raises OutOfBounds or DecodeError (60_exceptions.md R158, places 1 to 4). -/
theorem fetch_error_kind_cases (hf : fetch s = .error ⟨k, n⟩) : k = .outOfBounds ∨ k = .decodeError := by
  rcases fetch_cases s with ⟨-, hf'⟩ | ⟨-, -, hf'⟩ | ⟨d, -, -, -, ⟨-, hf'⟩ | ⟨-, hf'⟩⟩ <;>
    cases hf.symm.trans hf'
  · exact .inl rfl
  · exact .inr rfl
  · exact .inl rfl

/-- A fetched instruction raises OutOfBounds or a stack error (60_exceptions.md R158, places 5 to 8). -/
theorem ErrorCause.kind_cases (h : ErrorCause i s k n) :
    k = .outOfBounds ∨ k = .stackOverflow ∨ k = .stackUnderflow := by
  rcases h with ⟨r, -, rfl, -⟩ | ⟨-, ⟨-, -, rfl, -⟩ | ⟨-, -, rfl, -⟩ | ⟨-, -, -, rfl, -⟩⟩
  · exact .inl rfl
  · exact .inr (.inl rfl)
  · exact .inr (.inr rfl)
  · exact .inl rfl

/-- Neither source of a step's error asks the ALU for an operation it lacks (40_engine_decoder_alu.md R89). -/
theorem StepError.kind_ne_unsupportedOperation (h : StepError s k n) : k ≠ .unsupportedOperation := by
  rcases h with hf | ⟨i, -, hc⟩
  · rcases fetch_error_kind_cases hf with rfl | rfl <;> decide
  · rcases hc.kind_cases with rfl | rfl | rfl <;> decide

end UnsupportedOperation

/-- Settles O20: an error records its own kind, which is another, and an effect keeps the record. -/
theorem unsupportedOperationIsNeverRaised : Obligations.UnsupportedOperationIsNeverRaised := by
  intro s t hs h
  obtain ⟨-, ⟨k, n, rfl, hk⟩ | ⟨i, -, -, he⟩⟩ := step_error_or_effect h
  · exact fun heq => hk.kind_ne_unsupportedOperation (Option.some.inj heq)
  · rwa [he.err_errInfo_eq.1]

end Sys2Proof.Machine

/-! SUPPORT and the statements of 70_reset_and_hazards.md: what storing bytes at ascending addresses leaves at each
address, and so what loading leaves after reset. -/

namespace Sys2Proof.Machine

/-- Settles O16: the named fields are the reset values, and nothing is listed in memory. -/
theorem resetStateIsTheSpecs : Obligations.ResetStateIsTheSpecs :=
  ⟨by decide, rfl, rfl, rfl, rfl, rfl, rfl, rfl, rfl, Memory.read_nil⟩

/-- Bytes stored within Memory are read back in order from the first one's address, and beyond the last one the
memory reads as before (20_memory.md R42). -/
theorem Memory.read_storeBytes {m : Memory} (hm : m.wf = true) {a : Nat} {bs : List Byte}
    (hroom : a + bs.length ≤ 256) (i : Nat) : (storeBytes m a bs).read (a + i) = bs.getD i (m.read (a + i)) := by
  induction bs generalizing m a i with
  | nil => simp [storeBytes]
  | cons v vs ih =>
    rw [List.length_cons] at hroom
    have ha : a < 256 := by omega
    have hwf : (m.write a v).wf = true := Memory.write_wf hm ha v
    have hstore : storeBytes m a (v :: vs) = storeBytes (m.write a v) (a + 1) vs := by simp [storeBytes, ha]
    rw [hstore]
    cases i with
    | zero => simp [Memory.read_storeBytes_below hwf (Nat.lt_succ_self a), Memory.read_write hm]
    | succ i =>
      rw [show a + (i + 1) = a + 1 + i by omega, ih hwf (by omega) i, Memory.read_write hm, if_neg (by omega),
        List.getD_cons_succ]

theorem load_ok (s : State) {prog : List Byte} (h : prog.length ≤ 256) :
    s.load prog = .ok { s with mem := storeBytes s.mem 0 prog } :=
  if_pos h

/-- Only the memory clause of the invariant speaks of the memory, and loading keeps it. -/
theorem State.Inv.storeBytes {s : State} (hs : s.Inv) (a : Nat) (bs : List Byte) :
    State.Inv { s with mem := Machine.storeBytes s.mem a bs } :=
  { hs with memWf := storeBytes_wf hs.memWf a bs }

/-- Settles O18: loading stores the program's bytes from address 0 into the reset state's memory, which reads 0
everywhere. -/
theorem loadLeavesTheProgramFromZero : Obligations.LoadLeavesTheProgramFromZero := by
  intro prog hlen
  refine ⟨_, load_ok State.reset hlen, rfl, resetMeetsTheInvariant.storeBytes 0 prog, fun i => ?_⟩
  have hread := Memory.read_storeBytes (m := State.reset.mem) rfl ((Nat.zero_add _).trans_le hlen) i
  rwa [Nat.zero_add] at hread

end Sys2Proof.Machine

/-! SUPPORT and the statements about a step's errors (60_exceptions.md): which one is raised, that it changes only its
record, and when it is a stack error. -/

namespace Sys2Proof.Machine

/-! ## The error of a fetched instruction, places 5 to 8 -/

section FetchedInstruction

variable {i : Instr} {s : State} {k : ErrorKind} {n : Nat}

/-- Places 5 to 8 of 60_exceptions.md R158, of an instruction that is fetched; `errorCause_iff` ties it to
`ErrorCause`, and `firstError_of_fetch` to `firstError`. -/
def instrError (i : Instr) (s : State) : Option (ErrorKind × Nat) :=
  match i.regOperands.find? (fun a => decide (7 < a.toNat)) with
  | some r => some (.outOfBounds, r.toNat)
  | none =>
    if (i.opId = .push ∨ i.opId = .call) ∧ s.sp = 0 then some (.stackOverflow, 0)
    else if (i.opId = .pop ∨ i.opId = .ret) ∧ s.sp = 255 then some (.stackUnderflow, 255)
    else if i.opId = .call ∧ 253 < s.pc.toNat then some (.outOfBounds, s.pc.toNat + 2)
    else none

theorem wellFormed_of_find_illegal (h : i.regOperands.find? (fun a => decide (7 < a.toNat)) = none) :
    i.wellFormed = true := by
  simpa [Instr.wellFormed, RegByte.legal, List.find?_eq_none, Nat.lt_succ_iff] using h

theorem opId_eq_push : i.opId = .push ↔ ∃ a, i = .push a := by
  cases i <;> simp [Instr.opId]

theorem opId_eq_pop : i.opId = .pop ↔ ∃ a, i = .pop a := by
  cases i <;> simp [Instr.opId]

theorem opId_eq_call : i.opId = .call ↔ ∃ a, i = .call a := by
  cases i <;> simp [Instr.opId]

theorem opId_eq_ret : i.opId = .ret ↔ i = .ret := by
  cases i <;> simp [Instr.opId]

/-- An instruction's error is the first of places 5 to 8 that holds. -/
theorem errorCause_iff : ErrorCause i s k n ↔ instrError i s = some (k, n) := by
  unfold ErrorCause instrError
  cases hfind : i.regOperands.find? (fun a => decide (7 < a.toNat)) with
  | some r =>
    have hw : i.wellFormed = false :=
      Bool.eq_false_iff.2 fun hw => by simp [find_illegal_of_wellFormed hw] at hfind
    simp only [Option.some.injEq, exists_eq_left', hw, Bool.false_eq_true, false_and, or_false, Prod.mk.injEq, eq_comm]
  | none =>
    simp only [wellFormed_of_find_illegal hfind, ← opId_eq_push, ← opId_eq_pop, ← opId_eq_call, ← opId_eq_ret]
    split_ifs <;> grind

end FetchedInstruction

/-! ## The first error of a step -/

section FirstError

variable {s t : State} {k : ErrorKind} {n : Nat} {d : Descriptor}

theorem build_opId (id : OpId) (a b : Byte) : (id.build a b).opId = id := by
  cases id <;> rfl

/-- The descriptor's operand kinds say which operand bytes are register indices (30_encoding.md R63,
40_engine_decoder_alu.md R85). -/
theorem find_illegal_build {op : Byte} (hd : (op, d) ∈ opcodeTable) (a b : Byte) :
    (d.id.build a b).regOperands.find? (fun a => decide (7 < a.toNat)) =
      if d.kinds[0]? = some .reg ∧ 7 < a.toNat then some a
      else if d.kinds[1]? = some .reg ∧ 7 < b.toNat then some b
      else none := by
  simp only [opcodeTable, List.mem_cons, List.not_mem_nil, or_false, Prod.mk.injEq] at hd
  obtain ⟨-, rfl⟩ | ⟨-, rfl⟩ | ⟨-, rfl⟩ | ⟨-, rfl⟩ | ⟨-, rfl⟩ | ⟨-, rfl⟩ | ⟨-, rfl⟩ | ⟨-, rfl⟩ | ⟨-, rfl⟩ |
      ⟨-, rfl⟩ | ⟨-, rfl⟩ | ⟨-, rfl⟩ := hd <;>
    grind [OpId.build, Instr.regOperands]

theorem firstError_of_fetch_error (hf : fetch s = .error ⟨k, n⟩) : firstError s = some (k, n) := by
  rcases fetch_cases s with ⟨hp, hf'⟩ | ⟨hp, hd, hf'⟩ | ⟨d, hp, hm, hd, ⟨hl, hf'⟩ | ⟨-, hf'⟩⟩ <;>
    cases hf.symm.trans hf'
  · simp [firstError, hp]
  · simp [firstError, hd, Nat.not_lt.2 hp]
  · have hn : d.n ≤ 2 := (opcodeTable_row _ hm).1
    simp only [firstError, hd, Nat.not_lt.2 hp, if_false]
    by_cases ha : 255 < s.pc.toNat + 1
    · rw [if_pos ⟨by omega, ha⟩, show s.pc.toNat + 1 = 256 by omega]
    · rw [if_neg fun h => ha h.2, if_pos ⟨by omega, by omega⟩, show s.pc.toNat + 2 = 256 by omega]

theorem firstError_of_fetch {i : Instr} (hf : fetch s = .ok i) : firstError s = instrError i s := by
  rcases fetch_cases s with ⟨-, hf'⟩ | ⟨-, -, hf'⟩ | ⟨d, hp, hm, hd, ⟨-, hf'⟩ | ⟨hl, hf'⟩⟩ <;>
    cases hf.symm.trans hf'
  have hcall : d.id = .call → s.pc.toNat ≤ 254 := fun hid => by
    have hlen := (opcodeTable_row _ hm).2.1
    simp only [hid, OpId.build, Instr.length] at hlen
    omega
  simp only [firstError, hd, Nat.not_lt.2 hp, if_false]
  rw [if_neg (by omega), if_neg (by omega)]
  rw [instrError, find_illegal_build hm, build_opId]
  by_cases ha : d.kinds[0]? = some .reg ∧ 7 < (s.mem.read (s.pc.toNat + 1)).toNat
  · rw [if_pos ha, if_pos ha]
  by_cases hb : d.kinds[1]? = some .reg ∧ 7 < (s.mem.read (s.pc.toNat + 2)).toNat
  · rw [if_neg ha, if_neg ha, if_pos hb, if_pos hb]
  rw [if_neg ha, if_neg ha, if_neg hb, if_neg hb]
  grind

/-- The error of a step is the first of the eight places that holds (60_exceptions.md R158). -/
theorem stepError_iff : StepError s k n ↔ firstError s = some (k, n) := by
  unfold StepError
  cases hf : fetch s with
  | error r =>
    obtain ⟨k', n'⟩ := r
    simp [firstError_of_fetch_error hf]
  | ok i => simp [firstError_of_fetch hf, errorCause_iff]

theorem step_of_stepError (hr : s.status = .running) (h : StepError s k n) : step s = .next (errorState s k n) := by
  rcases h with hf | ⟨i, hf, hc⟩
  · exact step_fetch_error hr hf
  · rw [step_fetched hr hf, exec_of_errorCause hc]

end FirstError

/-- Settles O9: a step takes its error where it has one, and that is the first in the spec's order; without one it is
the effect of the fetched instruction, which keeps the record. -/
theorem firstErrorInPriorityOrderIsRaised : Obligations.FirstErrorInPriorityOrderIsRaised := by
  intro s hr
  refine ⟨fun k n h => step_of_stepError hr (stepError_iff.2 h), fun hnone => ?_⟩
  obtain ⟨t, ht⟩ := runningEngineAlwaysSteps s hr
  obtain ⟨-, ⟨k, n, -, hc⟩ | ⟨i, -, -, he⟩⟩ := step_error_or_effect ht
  · cases hnone.symm.trans (stepError_iff.1 hc)
  · exact ⟨t, ht, he.err_errInfo_eq⟩

/-- Settles O10: from a state without an error an effect records none, so the step took an error's own state. -/
theorem errorChangesOnlyItsRecord : Obligations.ErrorChangesOnlyItsRecord := by
  intro s t k hnone h herr
  obtain ⟨-, ⟨k', n, rfl, -⟩ | ⟨i, -, -, he⟩⟩ := step_error_or_effect h
  · cases herr
    rfl
  · cases herr.symm.trans (he.err_errInfo_eq.1.trans hnone)

/-! ## Stack errors -/

section StackErrors

variable {s t : State} {i : Instr} {k : ErrorKind} {n : Nat} {a : RegByte}

theorem encode_injective : Function.Injective encode := by
  intro i j h
  have hi := decode_encode_append i []
  rw [h, decode_encode_append] at hi
  cases hi
  rfl

/-- An instruction is fetched exactly where its encoding stands in Memory, whole (20_memory.md R43). -/
theorem fetch_eq_ok_iff : fetch s = .ok i ↔
    s.pc.toNat + i.length ≤ 256 ∧
      encode i = [s.mem.read s.pc.toNat, s.mem.read (s.pc.toNat + 1), s.mem.read (s.pc.toNat + 2)].take i.length := by
  refine ⟨fetch_encoded, fun ⟨hl, henc⟩ => ?_⟩
  obtain ⟨op, tail, d, a, b, hbytes, hd, -, rfl⟩ := decode_cases (decode_encode_append i [])
  obtain ⟨-, hlen, -⟩ := opcodeTable_row _ (decodeOpcode_cases hd)
  dsimp only at hlen
  rw [build_length, hlen] at hl henc
  have hop : op = s.mem.read s.pc.toNat := by
    rw [encode_build_row hd] at henc
    exact (List.cons.inj henc).1
  rcases fetch_cases s with ⟨hp, -⟩ | ⟨-, hd', -⟩ | ⟨d', -, -, hd', ⟨hgt, -⟩ | ⟨-, hf⟩⟩
  · omega
  · cases hd.symm.trans (hop ▸ hd')
  · cases hd.symm.trans (hop ▸ hd')
    omega
  · cases hd.symm.trans (hop ▸ hd')
    rw [hf, encode_injective (henc.trans _)]
    rw [encode_build_row hd, hop]
    rfl

/-- A one-operand instruction is fetched where its opcode stands, and its operand byte inside Memory. -/
theorem fetch_two_bytes {op : Byte} (hi : encode i = [op, a]) (hl : i.length = 2) :
    fetch s = .ok i ↔ s.mem.read s.pc.toNat = op ∧ s.pc.toNat ≤ 254 ∧ s.mem.read (s.pc.toNat + 1) = a := by
  rw [fetch_eq_ok_iff, hi, hl]
  simp only [List.take_succ_cons, List.take_zero, List.cons.injEq, and_true]
  rw [show s.pc.toNat + 2 ≤ 256 ↔ s.pc.toNat ≤ 254 by omega]
  grind

theorem fetch_ret : fetch s = .ok .ret ↔ s.mem.read s.pc.toNat = 0x11 ∧ s.pc.toNat ≤ 255 := by
  have hl : s.pc.toNat + Instr.ret.length ≤ 256 ↔ s.pc.toNat ≤ 255 := Nat.add_le_add_iff_right
  rw [fetch_eq_ok_iff, hl, and_comm]
  refine and_congr_left' ?_
  simp [encode, Instr.length, eq_comm]

theorem wellFormed_iff_of_regOperands (hi : i.regOperands = [a]) : i.wellFormed = true ↔ a.toNat ≤ 7 := by
  simp [Instr.wellFormed, hi, RegByte.legal, Nat.lt_succ_iff]

/-- A step's stack error is the fetched instruction's, for the fetch raises no such kind. -/
theorem stepError_iff_of_stack (hk : k = .stackOverflow ∨ k = .stackUnderflow) :
    StepError s k n ↔ ∃ i, fetch s = .ok i ∧ ErrorCause i s k n := by
  refine or_iff_right fun hf => ?_
  rcases hk with rfl | rfl <;> rcases fetch_error_kind_cases hf with h | h <;> cases h

theorem errorCause_stackOverflow_iff : ErrorCause i s .stackOverflow n ↔
    ((∃ a, i = .push a) ∨ ∃ a, i = .call a) ∧ i.wellFormed = true ∧ s.sp = 0 ∧ n = 0 := by
  simp only [ErrorCause, reduceCtorEq, false_and, and_false, exists_false, or_false, false_or, true_and]
  tauto

theorem errorCause_stackUnderflow_iff : ErrorCause i s .stackUnderflow n ↔
    ((∃ a, i = .pop a) ∨ i = .ret) ∧ i.wellFormed = true ∧ s.sp = 255 ∧ n = 255 := by
  simp only [ErrorCause, reduceCtorEq, false_and, and_false, exists_false, or_false, false_or, true_and]
  tauto

theorem stepError_stackOverflow_iff : StepError s .stackOverflow n ↔
    ((s.mem.read s.pc.toNat = 0x45 ∨ s.mem.read s.pc.toNat = 0x50) ∧ s.pc.toNat ≤ 254 ∧
      (s.mem.read (s.pc.toNat + 1)).toNat ≤ 7 ∧ s.sp = 0) ∧ n = 0 := by
  have hpush (a : RegByte) : fetch s = .ok (.push a) ↔ _ := fetch_two_bytes rfl rfl
  have hcall (a : RegByte) : fetch s = .ok (.call a) ↔ _ := fetch_two_bytes rfl rfl
  simp only [stepError_iff_of_stack (.inl rfl), errorCause_stackOverflow_iff]
  constructor
  · rintro ⟨_, hf, ⟨a, rfl⟩ | ⟨a, rfl⟩, hw, hs, rfl⟩
    · obtain ⟨hop, hp, rfl⟩ := (hpush a).1 hf
      exact ⟨⟨.inl hop, hp, (wellFormed_iff_of_regOperands rfl).1 hw, hs⟩, rfl⟩
    · obtain ⟨hop, hp, rfl⟩ := (hcall a).1 hf
      exact ⟨⟨.inr hop, hp, (wellFormed_iff_of_regOperands rfl).1 hw, hs⟩, rfl⟩
  · rintro ⟨⟨hop | hop, hp, ha, hs⟩, rfl⟩
    · exact ⟨_, (hpush _).2 ⟨hop, hp, rfl⟩, .inl ⟨_, rfl⟩, (wellFormed_iff_of_regOperands rfl).2 ha, hs, rfl⟩
    · exact ⟨_, (hcall _).2 ⟨hop, hp, rfl⟩, .inr ⟨_, rfl⟩, (wellFormed_iff_of_regOperands rfl).2 ha, hs, rfl⟩

theorem stepError_stackUnderflow_iff : StepError s .stackUnderflow n ↔
    (((s.mem.read s.pc.toNat = 0x46 ∧ s.pc.toNat ≤ 254 ∧ (s.mem.read (s.pc.toNat + 1)).toNat ≤ 7) ∨
      (s.mem.read s.pc.toNat = 0x11 ∧ s.pc.toNat ≤ 255)) ∧ s.sp = 255) ∧ n = 255 := by
  have hpop (a : RegByte) : fetch s = .ok (.pop a) ↔ _ := fetch_two_bytes rfl rfl
  simp only [stepError_iff_of_stack (.inr rfl), errorCause_stackUnderflow_iff]
  constructor
  · rintro ⟨_, hf, ⟨a, rfl⟩ | rfl, hw, hs, rfl⟩
    · obtain ⟨hop, hp, rfl⟩ := (hpop a).1 hf
      exact ⟨⟨.inl ⟨hop, hp, (wellFormed_iff_of_regOperands rfl).1 hw⟩, hs⟩, rfl⟩
    · exact ⟨⟨.inr (fetch_ret.1 hf), hs⟩, rfl⟩
  · rintro ⟨⟨⟨hop, hp, ha⟩ | hret, hs⟩, rfl⟩
    · exact ⟨_, (hpop _).2 ⟨hop, hp, rfl⟩, .inl ⟨_, rfl⟩, (wellFormed_iff_of_regOperands rfl).2 ha, hs, rfl⟩
    · exact ⟨_, fetch_ret.2 hret, .inr rfl, rfl, hs, rfl⟩

/-- From a state without an error, what a step records is its error. -/
theorem recorded_iff (hnone : s.err = none) (h : step s = .next t) :
    t.err = some k ∧ t.errInfo = n ↔ StepError s k n := by
  obtain ⟨hr, hcases⟩ := step_error_or_effect h
  refine ⟨fun ⟨herr, hinfo⟩ => ?_, fun hc => ?_⟩
  · rcases hcases with ⟨k', n', rfl, hc⟩ | ⟨i, -, -, he⟩
    · cases herr
      cases hinfo
      exact hc
    · cases herr.symm.trans (he.err_errInfo_eq.1.trans hnone)
  · cases h.symm.trans (step_of_stepError hr hc)
    exact ⟨rfl, rfl⟩

/-- A kind of error that a step raises under one condition and with one number. -/
theorem recorded_iff_of_stepError_iff {P : Prop} {n₀ : Nat} (hnone : s.err = none) (h : step s = .next t)
    (hk : ∀ n, StepError s k n ↔ P ∧ n = n₀) : (t.err = some k ↔ P) ∧ (t.err = some k → t.errInfo = n₀) := by
  have hrec (herr : t.err = some k) : P ∧ t.errInfo = n₀ := (hk _).1 ((recorded_iff hnone h).1 ⟨herr, rfl⟩)
  exact ⟨⟨fun herr => (hrec herr).1, fun hp => ((recorded_iff hnone h).2 ((hk n₀).2 ⟨hp, rfl⟩)).1⟩,
    fun herr => (hrec herr).2⟩

end StackErrors

/-- Settles O46: a stack error is one of the fetched instruction, and its bytes say which instruction that is. -/
theorem stackErrorsAreExactlyTheRangeErrors : Obligations.StackErrorsAreExactlyTheRangeErrors := by
  intro s t hnone h
  obtain ⟨hover, hoverInfo⟩ := recorded_iff_of_stepError_iff hnone h fun _ => stepError_stackOverflow_iff
  obtain ⟨hunder, hunderInfo⟩ := recorded_iff_of_stepError_iff hnone h fun _ => stepError_stackUnderflow_iff
  exact ⟨hover, hunder, hoverInfo, hunderInfo⟩

end Sys2Proof.Machine

/-! SUPPORT and the statements about every instruction that 10_state.md and 40_engine_decoder_alu.md R83 make: the
index check, `pc`, and two runs of which one differs in what no instruction reads. -/

namespace Sys2Proof.Machine

/-- Settles O36: the first illegal index is the instruction's error, before any other. -/
theorem firstIllegalIndexIsRaised : Obligations.FirstIllegalIndexIsRaised :=
  fun _ _ r hr => exec_of_errorCause (.inl ⟨r, hr, rfl, rfl⟩)

/-- Settles O42: an error keeps `pc` and is recorded; an effect records none and leaves the table's entry. -/
theorem programCounterFollowsTheTable : Obligations.ProgramCounterFollowsTheTable := by
  intro i s t hnone hl h
  rcases exec_cases h with ⟨k, n, rfl, -⟩ | ⟨-, he⟩
  · exact ⟨nofun, fun _ => rfl⟩
  · exact ⟨fun _ => he.pc_toNat hl, fun herr => absurd (he.err_errInfo_eq.1.trans hnone) herr⟩

/-! ## `G` and `L` are never read -/

section OtherFlags

variable {i : Instr} {s t : State} {f : Byte}

/-- An effect reads no flag but `E`: COMPARE writes them all, and every other instruction passes them on. -/
theorem Effect.setFl (hE : flagE f = flagE s.fl) (h : Effect i s t) :
    ∃ g, Effect i (s.setFl f) (t.setFl g) ∧ flagE g = flagE t.fl := by
  have hreg (a : RegByte) : regAt (s.setFl f) a = regAt s a := rfl
  have hpush : pushAddr (s.setFl f) = pushAddr s := rfl
  cases i with
  | compare a b =>
    cases h
    exact ⟨compareFlags (regAt s a) (regAt s b), rfl, rfl⟩
  | _ => exact ⟨f, by grind [Effect, State.setFl], by grind [Effect]⟩

/-- An instruction's error condition reads no flag, and its effect reads `E` alone. -/
theorem exec_setFl (hE : flagE f = flagE s.fl) (h : exec i s = .next t) :
    ∃ g, exec i (s.setFl f) = .next (t.setFl g) ∧ flagE g = flagE t.fl := by
  rcases exec_cases h with ⟨k, n, rfl, hc⟩ | ⟨hw, he⟩
  · exact ⟨f, exec_of_errorCause hc, hE⟩
  · obtain ⟨g, hg, hgE⟩ := he.setFl hE
    exact ⟨g, exec_of_effect hw hg, hgE⟩

theorem fetch_setFl (s : State) (f : Byte) : fetch (s.setFl f) = fetch s := rfl

end OtherFlags

/-- Settles O44: the fetch reads no flag, and an instruction none but `E`. -/
theorem greaterAndLessAreNeverRead : Obligations.GreaterAndLessAreNeverRead := by
  intro s t f hE h
  obtain ⟨hr, ⟨i, hf, hx⟩ | ⟨r, hf, rfl⟩⟩ := step_cases h
  · obtain ⟨g, hg, hgE⟩ := exec_setFl hE hx
    exact ⟨g, (step_fetched (s := s.setFl f) hr ((fetch_setFl s f).trans hf)).trans hg, hgE⟩
  · exact ⟨f, step_fetch_error (s := s.setFl f) hr ((fetch_setFl s f).trans hf), hE⟩

/-! ## Register 7 is an element of its own -/

section RegisterSeven

variable {i : Instr} {s t : State} {a : RegByte} (v : Byte)

theorem toNat_ne_seven (ha : (7 : Byte) ≠ a) : a.toNat ≠ 7 := fun h => ha (BitVec.eq_of_toNat_eq h.symm)

theorem regAt_setReg_seven (ha : (7 : Byte) ≠ a) : regAt (s.setReg 7 v) a = regAt s a := by
  unfold regAt
  split
  next h8 => exact Vector.getElem_set_ne (by decide) h8 (toNat_ne_seven ha).symm
  next => rfl

/-- Writes to register 7 and to a register of another name commute. -/
theorem set_seven_comm (ha : (7 : Byte) ≠ a) (h8 : a.toNat < 8) (w : Byte) :
    (s.regs.set a.toNat w).set (7 : Fin 8) v = (s.regs.set (7 : Fin 8) v).set a.toNat w :=
  Vector.set_comm w v (toNat_ne_seven ha)

/-- An effect that does not name register 7 passes its value on: `sp` is another element (10_state.md R23). -/
theorem Effect.setReg_seven (hi : (7 : Byte) ∉ i.regOperands) (h : Effect i s t) :
    Effect i (s.setReg 7 v) (t.setReg 7 v) := by
  have hpush : pushAddr (s.setReg 7 v) = pushAddr s := rfl
  cases i with
  | pop a =>
    obtain ⟨hs, h8, rfl⟩ := h
    have ha : (7 : Byte) ≠ a := by simpa [Instr.regOperands] using hi
    refine ⟨hs, h8, ?_⟩
    simp only [State.setReg, set_seven_comm v ha h8]
  | loadImmediate a b =>
    obtain ⟨h8, rfl⟩ := h
    have ha : (7 : Byte) ≠ a := by simpa [Instr.regOperands] using hi
    refine ⟨h8, ?_⟩
    simp only [State.setReg, set_seven_comm v ha h8]
  | multiply a b =>
    obtain ⟨h8, rfl⟩ := h
    obtain ⟨ha, hb⟩ : (7 : Byte) ≠ a ∧ (7 : Byte) ≠ b := by simpa [Instr.regOperands] using hi
    refine ⟨h8, ?_⟩
    rw [regAt_setReg_seven v ha, regAt_setReg_seven v hb]
    simp only [State.setReg, set_seven_comm v ha h8]
  | _ => grind [Effect, State.setReg, Instr.regOperands, regAt_setReg_seven]

theorem exec_setReg_seven (hi : (7 : Byte) ∉ i.regOperands) (h : exec i s = .next t) :
    exec i (s.setReg 7 v) = .next (t.setReg 7 v) := by
  rcases exec_cases h with ⟨k, n, rfl, hc⟩ | ⟨hw, he⟩
  · exact exec_of_errorCause hc
  · exact exec_of_effect hw (he.setReg_seven v hi)

end RegisterSeven

/-- Settles O45: an instruction's error condition reads no register's value, and its effect only those it names. -/
theorem registerSevenIsOnlyReachedByName : Obligations.RegisterSevenIsOnlyReachedByName :=
  fun _ _ _ v hi h => exec_setReg_seven v hi h

end Sys2Proof.Machine

/-! SUPPORT and the statements of the instructions one by one (41_system.md to 46_compare_branch.md): the encoding, the
index check, the end of Memory and the effect of each. -/

namespace Sys2Proof.Machine

/-! ## What the statements share -/

section Shared

variable {i : Instr} {s : State} {a b : RegByte}

theorem raisesOnIndex_first {l : List RegByte} (hi : i.regOperands = a :: l) : RaisesOnIndex i a :=
  fun ha _ => exec_of_errorCause (errorCause_first hi ha)

theorem raisesOnIndex_second (hi : i.regOperands = [a, b]) (ha : a.toNat < 8) : RaisesOnIndex i b :=
  fun hb _ => exec_of_errorCause (errorCause_second hi ha hb)

/-- An instruction of the table whose operand bytes do not all lie in Memory raises at the first address outside, 256
(60_exceptions.md R158, places 3 and 4). -/
theorem raisesPastMemory {op : Byte} {d : Descriptor} {n : Nat} (hd : decodeOpcode op = some d) (hn : n = d.n + 1) :
    RaisesPastMemory op n := by
  intro s hr hp hop hl
  rcases fetch_cases s with ⟨hp', -⟩ | ⟨-, hd', -⟩ | ⟨d', -, -, hd', ⟨-, hf⟩ | ⟨hl', -⟩⟩
  · omega
  · cases hd.symm.trans (hop ▸ hd')
  · exact step_fetch_error hr hf
  · cases hd.symm.trans (hop ▸ hd')
    omega

theorem exec_push_full (ha : a.toNat < 8) (hs : s.sp = 0) :
    exec (.push a) s = .next (errorState s .stackOverflow 0) :=
  exec_of_errorCause (errorCause_stackOverflow_iff.2 ⟨.inl ⟨a, rfl⟩, wellFormed_one rfl ha, hs, rfl⟩)

theorem exec_call_full (ha : a.toNat < 8) (hs : s.sp = 0) :
    exec (.call a) s = .next (errorState s .stackOverflow 0) :=
  exec_of_errorCause (errorCause_stackOverflow_iff.2 ⟨.inr ⟨a, rfl⟩, wellFormed_one rfl ha, hs, rfl⟩)

theorem exec_pop_end (ha : a.toNat < 8) (hs : s.sp = 255) :
    exec (.pop a) s = .next (errorState s .stackUnderflow 255) :=
  exec_of_errorCause (errorCause_stackUnderflow_iff.2 ⟨.inl ⟨a, rfl⟩, wellFormed_one rfl ha, hs, rfl⟩)

theorem exec_ret_end (hs : s.sp = 255) : exec .ret s = .next (errorState s .stackUnderflow 255) :=
  exec_of_errorCause (errorCause_stackUnderflow_iff.2 ⟨.inr rfl, rfl, hs, rfl⟩)

end Shared

/-! ## System, data movement, arithmetic -/

/-- Settles O25: the row of 0x47 has one operand, the index that is checked. -/
theorem printRegisterEmitsTheValue : Obligations.PrintRegisterEmitsTheValue :=
  fun _ => ⟨rfl, raisesOnIndex_first rfl, raisesPastMemory rfl rfl, fun s => exec_printRegister s⟩

/-- Settles O26: of the two operands of 0x82 the first alone is checked. -/
theorem loadImmediateWritesTheLiteral : Obligations.LoadImmediateWritesTheLiteral :=
  fun _ b => ⟨rfl, raisesOnIndex_first rfl, raisesPastMemory rfl rfl, fun s h => exec_loadImmediate s h b⟩

/-- MULTIPLY with legal indices completes and writes only its first register and `pc` (43_arithmetic.md R110). -/
theorem exec_multiply (s : State) {a b : RegByte} (ha : a.toNat < 8) (hb : b.toNat < 8) :
    exec (.multiply a b) s = .next { s with
      regs := s.regs.set a.toNat (BitVec.ofNat 8 (s.regs[a.toNat].toNat * s.regs[b.toNat].toNat)), pc := s.pc + 3 } :=
  exec_of_effect (wellFormed_two rfl ha hb) ⟨ha, by simp [regAt, ha, hb]⟩

/-- Settles O27: a byte made from the product is one made from the product modulo 256. -/
theorem multiplyWritesTheLowProduct : Obligations.MultiplyWritesTheLowProduct := by
  intro a b
  refine ⟨rfl, raisesOnIndex_first rfl, raisesOnIndex_second rfl, raisesPastMemory rfl rfl, fun s ha hb => ?_⟩
  have hmod (n : Nat) : BitVec.ofNat 8 (n % 256) = BitVec.ofNat 8 n := by simp [BitVec.toNat_eq]
  rw [exec_multiply s ha hb, hmod]

/-! ## The stack and subroutines -/

/-- Settles O28: the index is legal, so what remains is the stack's room; with it, one cell is written. -/
theorem pushStoresTheRegister : Obligations.PushStoresTheRegister := by
  intro a
  refine ⟨rfl, raisesOnIndex_first rfl, raisesPastMemory rfl rfl, fun s ha =>
    ⟨exec_push_full ha, fun hs hm => ⟨pushAddr_eq hs, s.mem.write (pushAddr s) s.regs[a.toNat], ?_,
      fun b => Memory.read_write hm _ b _⟩⟩⟩
  exact exec_of_effect (wellFormed_one rfl ha) ⟨hs, by simp [regAt, ha]⟩

/-- Settles O29: `sp` = 255 is POP's one error past the index check. -/
theorem popLoadsTheRegister : Obligations.PopLoadsTheRegister :=
  fun _ => ⟨rfl, raisesOnIndex_first rfl, raisesPastMemory rfl rfl, fun _ ha => ⟨exec_pop_end ha, exec_pop ha⟩⟩

/-- CALL at 254 with room on the stack raises on its return address 256 (45_call_return.md R130). -/
theorem exec_call_at_254 {s : State} {a : RegByte} (ha : a.toNat < 8) (hs : s.sp ≠ 0) (hp : s.pc.toNat = 254) :
    exec (.call a) s = .next (errorState s .outOfBounds 256) :=
  exec_of_errorCause (.inr ⟨wellFormed_one rfl ha, .inr (.inr ⟨⟨a, rfl⟩, hs, by omega, rfl, by omega⟩)⟩)

/-- Settles O30: the three stages past the index check, each with the ones before it passed. -/
theorem callPushesTheReturnAddress : Obligations.CallPushesTheReturnAddress := by
  intro a
  refine ⟨rfl, raisesOnIndex_first rfl, raisesPastMemory rfl rfl, fun s ha =>
    ⟨exec_call_full ha, exec_call_at_254 ha, fun hs hp hm => ⟨pushAddr_eq hs,
      s.mem.write (pushAddr s) (BitVec.ofNat 8 (s.pc.toNat + 2)), ?_, fun b => Memory.read_write hm _ b _⟩⟩⟩
  exact exec_of_effect (wellFormed_one rfl ha) ⟨hs, hp, by simp [regAt, ha]⟩

/-- Settles O31: RETURN has no index to check, and `sp` = 255 is its one error. -/
theorem returnPopsTheProgramCounter : Obligations.ReturnPopsTheProgramCounter :=
  ⟨rfl, fun _ => ⟨exec_ret_end, exec_ret⟩⟩

/-! ## COMPARE and the jumps -/

section CompareOutcome

variable {u v : Byte}

theorem aluCompare_equal (h : u = v) : aluCompare u v = 0x01 := if_pos h

theorem aluCompare_greater (h : v.toNat < u.toNat) : aluCompare u v = 0x02 :=
  (if_neg fun heq : u = v => by simp [heq] at h).trans (if_pos h)

theorem aluCompare_less (h : u.toNat < v.toNat) : aluCompare u v = 0x04 :=
  (if_neg fun heq : u = v => by simp [heq] at h).trans (if_neg h.not_gt)

end CompareOutcome

/-- Settles O22: two bytes are equal or one is the greater, and each of the three values has its flag alone. -/
theorem compareSetsExactlyOneFlag : Obligations.CompareSetsExactlyOneFlag := by
  intro u v
  refine ⟨aluCompare_equal, aluCompare_greater, aluCompare_less, flagE_compareFlags u v, ?_⟩
  rcases Nat.lt_trichotomy u.toNat v.toNat with hlt | heq | hgt
  · rw [aluCompare_less hlt, decide_eq_true hlt, decide_eq_false (by omega)]
    exact ⟨rfl, rfl⟩
  · rw [aluCompare_equal (BitVec.eq_of_toNat_eq heq), decide_eq_false (by omega), decide_eq_false (by omega)]
    exact ⟨rfl, rfl⟩
  · rw [aluCompare_greater hgt, decide_eq_true hgt, decide_eq_false (by omega)]
    exact ⟨rfl, rfl⟩

/-- Settles O32: both indices are checked, `a` first, and the flags are `compare`'s. -/
theorem compareRecordsTheOutcome : Obligations.CompareRecordsTheOutcome :=
  fun _ _ => ⟨rfl, raisesOnIndex_first rfl, raisesOnIndex_second rfl, raisesPastMemory rfl rfl,
    fun s => exec_compare s⟩

/-- JUMP with a legal index completes and writes only `pc` (46_compare_branch.md R141). -/
theorem exec_jump (s : State) {a : RegByte} (ha : a.toNat < 8) :
    exec (.jump a) s = .next { s with pc := zext9 s.regs[a.toNat] } :=
  exec_of_effect (wellFormed_one rfl ha) (by simp [Effect, regAt, ha])

/-- Settles O33: past the index check JUMP has no error. -/
theorem jumpGoesToTheRegistersValue : Obligations.JumpGoesToTheRegistersValue :=
  fun _ => ⟨rfl, raisesOnIndex_first rfl, raisesPastMemory rfl rfl, fun s => exec_jump s⟩

/-- Settles O34: the index check does not look at the flags, and `E` is bit 0 of them. -/
theorem jumpIfEqualGoesByE : Obligations.JumpIfEqualGoesByE := by
  intro a
  refine ⟨rfl, raisesOnIndex_first rfl, raisesPastMemory rfl rfl, fun s ha => ?_⟩
  rw [exec_jumpIfEqual s ha, flagE]
  exact ⟨fun hE => by rw [if_pos hE], fun hE => by rw [hE]; rfl⟩

/-- Settles O35: as for JUMP_IF_EQUAL, with the two ways exchanged. -/
theorem jumpIfNotEqualGoesByE : Obligations.JumpIfNotEqualGoesByE := by
  intro a
  refine ⟨rfl, raisesOnIndex_first rfl, raisesPastMemory rfl rfl, fun s ha => ?_⟩
  rw [exec_jumpIfNotEqual s ha, flagE]
  exact ⟨fun hE => by rw [hE]; rfl, fun hE => by rw [if_pos hE]⟩

/-- Settles O52: the register's value, widened, is the `pc` that JUMP writes over itself. -/
theorem jumpToItselfChangesNothing : Obligations.JumpToItselfChangesNothing := by
  intro s a ha h
  have hpc : zext9 s.regs[a.toNat] = s.pc := BitVec.eq_of_toNat_eq ((zext9_toNat _).trans h)
  rw [exec_jump s ha, hpc]

end Sys2Proof.Machine
